-- ==== Sys2Proof/Word.lean ====
section
/-! DEFINITION. The word types of MDE and the four-word tuple its registers come in (spec/00_scope.md R8, R13). -/

namespace Sys2Proof

/-- A 32-bit unsigned word: the width of every register and of the bus (R8, R9). -/
abbrev Word := BitVec 32

/-- One byte of a message, of the buffer or of a digest. -/
abbrev Byte := BitVec 8

/-- Four words in the order the spec writes them: `A, B, C, D`, `a, b, c, d` or `DIGEST0..3`. -/
structure Quad where
  a : Word
  b : Word
  c : Word
  d : Word
  deriving DecidableEq, Repr

end Sys2Proof
end

