-- ==== Sys2Proof/Machine/Bits.lean ====
section
/-! DEFINITION. Byte order and bit fields (spec/00_scope.md R13, R14; spec/20_memory.md R202 to R204). -/

namespace Sys2Proof.Machine

/-- `LE32(b0, b1, b2, b3)`: four bytes to a word, least significant byte first (R14). -/
def le32 (b0 b1 b2 b3 : Byte) : Word :=
  b0.setWidth 32 ||| b1.setWidth 32 <<< 8 ||| b2.setWidth 32 <<< 16 ||| b3.setWidth 32 <<< 24

/-- `byte_j(w)` = `w[8j+7:8j]` of a value of any width (R14; R424 uses it on the 64-bit length). -/
def byteOf {n : Nat} (w : BitVec n) (j : Nat) : Byte := w.extractLsb' (8 * j) 8

/-- A word with the byte lanes that `be` enables taken from `new`, the others from `old` (R123, R200). -/
def mergeLanes (be : BitVec 4) (old new : Word) : Word :=
  let lane (j : Nat) : Byte := if be.getLsbD j then byteOf new j else byteOf old j
  le32 (lane 0) (lane 1) (lane 2) (lane 3)

/-- The `n` bytes of a value, least significant first. -/
def leBytes {m : Nat} (w : BitVec m) (n : Nat) : List Byte := (List.range n).map (byteOf w)

end Sys2Proof.Machine
end

