-- ==== Sys2Proof/Config.lean ====
section
/-! DEFINITION. What an implementation of MDE fixes (spec/00_scope.md R11) and the model's free values
(spec/20_memory.md R205, spec/70_reset_and_hazards.md R701). -/

namespace Sys2Proof

/-- The capacities R11 allows: `MSG_BYTES` is a multiple of 4 with `64 <= MSG_BYTES <= 32768`. -/
abbrev Config.legalCapacity (n : Nat) : Prop := n % 4 = 0 ∧ 64 ≤ n ∧ n ≤ 32768

/-- DESIGN CHOICE (notes/assumptions/2.md): the capacity `State.reset` has; R11 leaves it OPEN.
The programs of spec/95_test_vectors.md section 3 use this one. -/
def Config.resetCapacity : Nat := 4096

/-- Free values, one for each draw (notes/assumptions/5.md): nothing is known of any of them.
Used for the bytes R205 calls "any value" and for the registers R701 calls unspecified. -/
opaque Config.freeBits : Nat → BitVec 64

end Sys2Proof
end

