-- ==== Sys2Proof/Machine/Tables.lean ====
section
/-! DEFINITION. The constants of MDE: the initial value, the two ROMs' contents and the sequencer's state codes
(spec/10_state.md R104, R111; spec/41_constant_rom.md R402; spec/30_encoding.md R314). -/

namespace Sys2Proof.Machine

/-- The initial value IV of the chaining registers (R104; PRESUMED by the spec, notes/assumptions/12.md). -/
def initialValue : Quad :=
  { a := 0x67452301#32, b := 0xEFCDAB89#32, c := 0x98BADCFE#32, d := 0x10325476#32 }

/-- The constant ROM's 64 words, `T[i]` at address `i - 1` (R402, R403). -/
def constantTable : List Word :=
  [0xD76AA478#32, 0xE8C7B756#32, 0x242070DB#32, 0xC1BDCEEE#32,
   0xF57C0FAF#32, 0x4787C62A#32, 0xA8304613#32, 0xFD469501#32,
   0x698098D8#32, 0x8B44F7AF#32, 0xFFFF5BB1#32, 0x895CD7BE#32,
   0x6B901122#32, 0xFD987193#32, 0xA679438E#32, 0x49B40821#32] ++
  [0xF61E2562#32, 0xC040B340#32, 0x265E5A51#32, 0xE9B6C7AA#32,
   0xD62F105D#32, 0x02441453#32, 0xD8A1E681#32, 0xE7D3FBC8#32,
   0x21E1CDE6#32, 0xC33707D6#32, 0xF4D50D87#32, 0x455A14ED#32,
   0xA9E3E905#32, 0xFCEFA3F8#32, 0x676F02D9#32, 0x8D2A4C8A#32] ++
  [0xFFFA3942#32, 0x8771F681#32, 0x6D9D6122#32, 0xFDE5380C#32,
   0xA4BEEA44#32, 0x4BDECFA9#32, 0xF6BB4B60#32, 0xBEBFBC70#32,
   0x289B7EC6#32, 0xEAA127FA#32, 0xD4EF3085#32, 0x04881D05#32,
   0xD9D4D039#32, 0xE6DB99E5#32, 0x1FA27CF8#32, 0xC4AC5665#32] ++
  [0xF4292244#32, 0x432AFF97#32, 0xAB9423A7#32, 0xFC93A039#32,
   0x655B59C3#32, 0x8F0CCC92#32, 0xFFEFF47D#32, 0x85845DD1#32,
   0x6FA87E4F#32, 0xFE2CE6E0#32, 0xA3014314#32, 0x4E0811A1#32,
   0xF7537E82#32, 0xBD3AF235#32, 0x2AD7D2BB#32, 0xEB86D391#32]

/-- The step ROM's 64 microwords, `SROM[i]` at address `i - 1` (R310, R314). -/
def stepTable : List (BitVec 16) :=
  [0x01C0#16, 0x0304#16, 0x0448#16, 0x058C#16,
   0x01D0#16, 0x0314#16, 0x0458#16, 0x059C#16,
   0x01E0#16, 0x0324#16, 0x0468#16, 0x05AC#16,
   0x01F0#16, 0x0334#16, 0x0478#16, 0x05BC#16] ++
  [0x0145#16, 0x0259#16, 0x03AD#16, 0x0501#16,
   0x0155#16, 0x0269#16, 0x03BD#16, 0x0511#16,
   0x0165#16, 0x0279#16, 0x038D#16, 0x0521#16,
   0x0175#16, 0x0249#16, 0x039D#16, 0x0531#16] ++
  [0x0116#16, 0x02E2#16, 0x042E#16, 0x05FA#16,
   0x0106#16, 0x02D2#16, 0x041E#16, 0x05EA#16,
   0x0136#16, 0x02C2#16, 0x040E#16, 0x05DA#16,
   0x0126#16, 0x02F2#16, 0x043E#16, 0x05CA#16] ++
  [0x0183#16, 0x029F#16, 0x03FB#16, 0x0557#16,
   0x01B3#16, 0x028F#16, 0x03EB#16, 0x0547#16,
   0x01A3#16, 0x02BF#16, 0x03DB#16, 0x0577#16,
   0x0193#16, 0x02AF#16, 0x03CB#16, 0x0567#16]

/-- The constant ROM as manufactured (R405). -/
def constantRom : Vector Word 64 := ⟨⟨constantTable⟩, rfl⟩

/-- The step ROM as manufactured (R110, R315). -/
def stepRom : Vector (BitVec 16) 64 := ⟨⟨stepTable⟩, rfl⟩

/-- ROM entry `i`, at address `i - 1`; there is no entry 0 and no entry above 64 (R310, R403). -/
def romEntry {α : Type} (rom : Vector α 64) (i : BitVec 7) : Option α :=
  if i = 0#7 then none else rom[i.toNat - 1]?

/-- The sequencer's state codes (R111, R316). -/
@[simp] abbrev Fsm.idle : BitVec 3 := 0#3
/-- Code 1: LOAD. -/
@[simp] abbrev Fsm.load : BitVec 3 := 1#3
/-- Code 2: ROUND. -/
@[simp] abbrev Fsm.round : BitVec 3 := 2#3
/-- Code 3: FOLD. -/
@[simp] abbrev Fsm.fold : BitVec 3 := 3#3
/-- Code 4: ASSEMBLE. -/
@[simp] abbrev Fsm.assemble : BitVec 3 := 4#3

end Sys2Proof.Machine
end

