-- ==== Sys2Proof/Syntax.lean ====
section
/-! DEFINITION. The instructions of MDE: the 14 rows of spec/opcode_table.json (spec/30_encoding.md). -/

namespace Sys2Proof

/-- The commands that can be accepted, the values of the register `op` (spec/10_state.md R112). -/
inductive Cmd where
  | init
  | compress
  | hash
  deriving DecidableEq, Repr

/-- The auxiliary functions an `FN` field selects (R311). -/
inductive AuxFn where
  | F
  | G
  | H
  | I
  deriving DecidableEq, Repr

/-- A step microword's fields: function, message-word index, rotation amount (R310). -/
structure Microword where
  fn : AuxFn
  k : BitVec 4
  s : BitVec 5
  deriving DecidableEq, Repr

/-- The three encoded formats (R300). -/
inductive Format where
  /-- 32-bit data of a host write to CTRL (R301) -/
  | ctrlw
  /-- 16-bit step-ROM microword (R310) -/
  | stepw
  /-- 3-bit sequencer state code (R316) -/
  | fsm
  deriving DecidableEq, Repr

/-- One constructor per row of the opcode table. -/
inductive Instr where
  /-- NOP, spec/46_commands.md R544 -/
  | nop
  /-- INIT, R545 -/
  | init
  /-- COMPRESS, R547 -/
  | compress
  /-- HASH, R550 -/
  | hash
  /-- a reserved command, OP 0x4 to 0x7, spec/60_exceptions.md R604 -/
  | reservedOp47 (op : BitVec 4)
  /-- a reserved command, OP 0x8 to 0xF, R604 -/
  | reservedOp8F (op : BitVec 4)
  /-- STEP_F k, s: spec/44_compression_core.md R470 -/
  | stepF (k : BitVec 4) (s : BitVec 5)
  /-- STEP_G k, s: R471 -/
  | stepG (k : BitVec 4) (s : BitVec 5)
  /-- STEP_H k, s: R472 -/
  | stepH (k : BitVec 4) (s : BitVec 5)
  /-- STEP_I k, s: R473 -/
  | stepI (k : BitVec 4) (s : BitVec 5)
  /-- LOAD, spec/43_block_decoder.md R440 -/
  | load
  /-- ROUND, spec/44_compression_core.md R474 -/
  | round
  /-- FOLD, R490 -/
  | fold
  /-- ASSEMBLE, spec/45_digest_assembler.md R521 -/
  | assemble
  deriving DecidableEq, Repr

end Sys2Proof
end

