-- ==== Sys2Proof/Machine/State.lean ====
section
/-! DEFINITION. The state of MDE (spec/10_state.md R100), the reasons a step can stop, and the state after reset
(spec/70_reset_and_hazards.md R701). Plain data throughout. -/

namespace Sys2Proof.Machine

/-- The codes of STATUS.ERRCODE; codes 4 to 15 are never produced (spec/60_exceptions.md R601). -/
inductive ErrCode where
  /-- 0: no rejection since the last acceptance or reset -/
  | none
  /-- 1: reserved opcode (R604) -/
  | cmd
  /-- 2: a command while BUSY (R605) -/
  | busy
  /-- 3: HASH with a length above MSG_BYTES (R606) -/
  | len
  deriving DecidableEq, Repr

/-- The stored fields of STATUS (spec/10_state.md R121); the reserved bits have no storage. -/
structure Status where
  busy : Bool
  done : Bool
  err : Bool
  errcode : ErrCode
  deriving DecidableEq, Repr

/-- The message buffer as the bytes written since the last reset, keyed by buffer offset.
An offset that is not listed is unwritten and has no value (spec/20_memory.md R204, R205; spec/10_state.md R127). -/
abbrev Memory := List Host.Cell

/-- The canonical form: offsets strictly rising. A listed byte is a written byte, whatever its value,
so no entry equals what an unlisted offset reads as. -/
abbrev Memory.wf (m : Memory) : Prop := m.Pairwise (fun p q => p.1 < q.1)

/-- One transaction, or one POLL loop, of the host's program (spec/20_memory.md R201; spec/30_encoding.md R318, R319). -/
inductive HostOp where
  /-- `BusWrite(addr, be, wdata)` -/
  | write (addr : BitVec 16) (be : BitVec 4) (wdata : Word)
  /-- `BusRead(addr)` -/
  | read (addr : BitVec 16)
  /-- `POLL`: `BusRead(0x0004)` repeated until the result has bit 0 = 0 -/
  | poll
  deriving DecidableEq, Repr

/-- Whose step comes next (spec/46_commands.md R560, R562; spec/70_reset_and_hazards.md R700). -/
inductive Turn where
  /-- the host performs its next transaction -/
  | host
  /-- the engine performs the micro-step `fsm` names -/
  | engine
  /-- the input `rst` is at this level at the next rising edge of `clk` -/
  | rst (level : Bool)
  /-- DESIGN CHOICE (notes/assumptions/9.md): the step datapath performs the step of `SROM[i]` by itself, without what
  ROUND does after it. The hardware has no such turn; the model's `withFetchWord` uses it to run one STEPW. -/
  | datapath
  deriving DecidableEq, Repr

/-- The state of one MDE instance and of its environment. -/
structure State where
  /-- `A, B, C, D`, the chaining registers (R103) -/
  chain : Quad
  /-- `a, b, c, d`, the working registers (R106) -/
  work : Quad
  /-- `X[0..15]`, the message schedule (R108) -/
  x : Vector Word 16
  /-- `T[1..64]`, the constant ROM (R109) -/
  romT : Vector Word 64
  /-- `SROM[1..64]`, the step ROM (R110) -/
  srom : Vector (BitVec 16) 64
  /-- the sequencer state's 3-bit code (R111) -/
  fsm : BitVec 3
  /-- the accepted command (R112) -/
  op : Cmd
  /-- the step index (R113) -/
  i : BitVec 7
  /-- the current block's index (R114) -/
  blk : Nat
  /-- the number of blocks the command processes (R114) -/
  nblk : Nat
  /-- `len_q`, the latched length (R115) -/
  lenQ : BitVec 64
  /-- STATUS (R121) -/
  status : Status
  /-- LEN_LO (R123) -/
  lenLo : Word
  /-- LEN_HI (R123) -/
  lenHi : Word
  /-- DIGEST0..DIGEST3 (R124) -/
  digest : Quad
  /-- the message buffer `MSGBUF` (spec/20_memory.md R204) -/
  mem : Memory
  /-- the parameter `MSG_BYTES` (spec/00_scope.md R11): no step changes it -/
  msgBytes : Nat
  /-- the level of the input `rst` (spec/20_memory.md R200); the model's own field -/
  rst : Bool
  /-- the host's transactions still to come, in order (spec/20_memory.md R213); the model's own field -/
  host : List HostOp
  /-- the turns still to come (spec/46_commands.md R562); the model's own field -/
  sched : List Turn
  /-- the words the host's reads returned, newest first (spec/20_memory.md R201); the model's own field -/
  reads : List Word
  /-- how many free values were drawn (spec/20_memory.md R205); the model's own field -/
  draws : Nat
  deriving DecidableEq, Repr

/-- The model's faults. The hardware raises none of them (spec/60_exceptions.md R607): each stops the model where
the hardware either goes on with an unknown value or cannot be. All are safe. -/
inductive Fault where
  /-- Raised by LOAD (through MemRead) on a byte the host has not written since reset (spec/20_memory.md R205). Safe. -/
  | unwrittenByte
  /-- Raised by LOAD (through MemRead) on an offset at or above MSG_BYTES, which the engine never reads
  (spec/20_memory.md R206). Safe. -/
  | bufferRange
  /-- Raised by LOAD (through PadByte) on an offset at or above the padded length (spec/42_padding.md R424). Safe. -/
  | padRange
  /-- Raised by the engine on an `fsm` code 5 to 7 (spec/10_state.md R111). Safe. -/
  | unreachableFsm
  /-- Raised by ROUND, the STEPs and a datapath turn on a step index outside 1..64 (spec/41_constant_rom.md R404). Safe. -/
  | romIndex
  /-- Raised by ROUND and a datapath turn on a step-ROM entry that is not R314's, with a reserved bit set or not
  (spec/30_encoding.md R315). Safe. -/
  | stepRomEntry
  deriving DecidableEq, Repr

/-- The model's refusals. -/
inductive Refusal where
  /-- Raised only by an arm of `exec` for an instruction without a meaning; every instruction has one. Safe. -/
  | notModelled (mnemonic : String)
  deriving DecidableEq, Repr

/-- STATUS after reset: every field 0 (R121, R122). -/
def Status.reset : Status := { busy := false, done := false, err := false, errcode := .none }

/-- Four zero words. -/
def Quad.zero : Quad := { a := 0#32, b := 0#32, c := 0#32, d := 0#32 }

/-- The machine right after reset (R701). The registers R701 leaves unspecified (`work`, `x`, `op`, `i`, `blk`, `nblk`,
`lenQ`) have the values of notes/assumptions/3.md, and `msgBytes` that of notes/assumptions/2.md: DESIGN CHOICES. -/
def State.reset : State where
  chain := initialValue
  work := Quad.zero
  x := Vector.replicate 16 0#32
  romT := constantRom
  srom := stepRom
  fsm := Fsm.idle
  op := .init
  i := 0#7
  blk := 0
  nblk := 0
  lenQ := 0#64
  status := Status.reset
  lenLo := 0#32
  lenHi := 0#32
  digest := Quad.zero
  mem := []
  msgBytes := Config.resetCapacity
  rst := false
  host := []
  sched := []
  reads := []
  draws := 0

end Sys2Proof.Machine
end

