-- ==== Sys2Proof/Machine/Flags.lean ====
section
/-! DEFINITION. STATUS: its bits and the three places that write it (spec/10_state.md R121, R122).
There is no flag from the datapath. -/

namespace Sys2Proof.Machine

/-- The 4-bit code of an ERRCODE (spec/60_exceptions.md R601). -/
def errCodeBits : ErrCode → BitVec 4
  | .none => 0#4
  | .cmd => 1#4
  | .busy => 2#4
  | .len => 3#4

/-- The word a read of STATUS returns: BUSY 0, DONE 1, ERR 2, ERRCODE 7:4, the others 0 (R121). -/
def statusWord (st : Status) : Word :=
  0#24 ++ errCodeBits st.errcode ++ 0#1 ++ BitVec.ofBool st.err ++ BitVec.ofBool st.done ++ BitVec.ofBool st.busy

/-- What an accepted command writes (spec/46_commands.md R541). -/
def statusAccepted : Status := { busy := true, done := false, err := false, errcode := .none }

/-- What a rejected command writes: ERR and ERRCODE only (spec/60_exceptions.md R603). -/
def statusRejected (code : ErrCode) (st : Status) : Status := { st with err := true, errcode := code }

/-- What ASSEMBLE writes: BUSY and DONE only (spec/45_digest_assembler.md R521). -/
def statusCompleted (st : Status) : Status := { st with busy := false, done := true }

end Sys2Proof.Machine
end

