-- ==== Sys2Proof/Machine/Operands.lean ====
section
/-! DEFINITION. The operands of commands and steps (spec/30_encoding.md R304, R312). -/

namespace Sys2Proof.Machine

/-- `L = {LEN_HI, LEN_LO}`, 64 bits unsigned (R304; spec/10_state.md R123). -/
def lengthOperand (s : State) : BitVec 64 := s.lenHi ++ s.lenLo

/-- `T[i]` for the current step index (R312; spec/41_constant_rom.md R404). -/
def constantOperand (s : State) : Option Word := romEntry s.romT s.i

/-- `X[k]` (R312). -/
def scheduleOperand (s : State) (k : BitVec 4) : Word := s.x[k.toNat]'k.isLt

/-- `SROM[i]` for the current step index (spec/44_compression_core.md R474). -/
def microwordOperand (s : State) : Option (BitVec 16) := romEntry s.srom s.i

end Sys2Proof.Machine
end

