-- ==== Sys2Proof/Machine/Ops.lean ====
section
/-! DEFINITION. The shared operations: the message buffer, the padding front-end, the block decoder's reads, accepting and
rejecting a command, and the reset action (spec files 20, 42, 43, 46, 60 and 70). -/

namespace Sys2Proof.Machine

/-! ## The message buffer (spec/20_memory.md) -/

/-- The byte written at an offset, if any. -/
def Memory.get : Memory → Nat → Option Byte
  | [], _ => none
  | (a, v) :: rest, off => if a = off then some v else Memory.get rest off

/-- Writing one byte keeps the offsets strictly rising. -/
def Memory.set : Memory → Nat → Byte → Memory
  | [], off, v => [(off, v)]
  | (a, w) :: rest, off, v =>
    if off < a then (off, v) :: (a, w) :: rest
    else if off = a then (off, v) :: rest
    else (a, w) :: Memory.set rest off v

/-- Lane `j` of a bus write at word offset `off` (R207). -/
def writeLane (be : BitVec 4) (wdata : Word) (off j : Nat) (m : Memory) : Memory :=
  if be.getLsbD j then Memory.set m (off + j) (byteOf wdata j) else m

/-- `MemWrite`: each enabled lane `j` stores `wdata[8j+7:8j]` at `off + j` (R207). -/
def writeLanes (be : BitVec 4) (wdata : Word) (off : Nat) (m : Memory) : Memory :=
  writeLane be wdata off 3 (writeLane be wdata off 2 (writeLane be wdata off 1 (writeLane be wdata off 0 m)))

/-- `MemRead(off, 1)`, the engine's read: a fault on an unwritten byte (R205, R206). -/
def memRead1 (s : State) (off : Nat) : Except Fault Byte :=
  if off < s.msgBytes then
    match Memory.get s.mem off with
    | some b => .ok b
    | none => .error .unwrittenByte
  else .error .bufferRange

/-- Four bytes read in order and composed to a word, least significant first. -/
def readWord (byte : Nat → Except Fault Byte) (off : Nat) : Except Fault Word := do
  let b0 ← byte off
  let b1 ← byte (off + 1)
  let b2 ← byte (off + 2)
  let b3 ← byte (off + 3)
  return le32 b0 b1 b2 b3

/-- `MemRead(off, 4)` (R206). -/
def memRead4 (s : State) (off : Nat) : Except Fault Word := readWord (memRead1 s) off

/-! ## The padding front-end (spec/42_padding.md) -/

/-- `nblk = (L + 8) div 64 + 1` (R421). -/
def blockCount (L : Nat) : Nat := (L + 8) / 64 + 1

/-- `P(L) = 64 * ((L + 8) div 64 + 1)` (R421). -/
def paddedLength (L : Nat) : Nat := 64 * blockCount L

/-- `Lbits = (L * 8) mod 2^64` (R422). -/
def lengthBits (L : BitVec 64) : BitVec 64 := L * 8#64

/-- `PadByte(j)`: byte `j` of the padded message, for `j < P(L)` (R424). -/
def padByte (s : State) (j : Nat) : Except Fault Byte :=
  let L := s.lenQ.toNat
  let P := paddedLength L
  if j < L then memRead1 s j
  else if j = L then .ok 0x80#8
  else if j < P - 8 then .ok 0x00#8
  else if j < P then .ok (byteOf (lengthBits s.lenQ) (j - (P - 8)))
  else .error .padRange

/-! ## The block decoder (spec/43_block_decoder.md) -/

/-- `X[w]` as LOAD forms it: from the padded message for HASH, from the raw buffer otherwise (R440 to R442). -/
def scheduleWord (s : State) (w : Nat) : Except Fault Word :=
  if s.op = .hash then readWord (padByte s) (64 * s.blk + 4 * w) else memRead4 s (4 * w)

/-- `n` words computed in order 0, 1, ..., or the first fault among them. -/
def collectWords (word : Nat → Except Fault Word) : (n : Nat) → Except Fault (Vector Word n)
  | 0 => .ok #v[]
  | n + 1 =>
    match collectWords word n with
    | .error f => .error f
    | .ok v =>
      match word n with
      | .error f => .error f
      | .ok w => .ok (v.push w)

/-! ## Accepting and rejecting a command -/

/-- What every accepted command does (spec/46_commands.md R541). -/
def accept (c : Cmd) (s : State) : State := { s with status := statusAccepted, op := c }

/-- `raise Reject(code)`, MDE's one kind of exception: it records the code in STATUS and changes nothing else
(spec/60_exceptions.md R603, R612). There is no return: the next acceptance clears it (R613). -/
def reject (code : ErrCode) (s : State) : State := { s with status := statusRejected code s.status }

/-! ## Reset (spec/70_reset_and_hazards.md) -/

/-- A free word (notes/assumptions/4.md). -/
def freeWord (n : Nat) : Word := (Config.freeBits n).setWidth 32

/-- Four free words. -/
def freeQuad (n : Nat) : Quad :=
  { a := freeWord n, b := freeWord (n + 1), c := freeWord (n + 2), d := freeWord (n + 3) }

/-- A free command: any of the three values of `op`. -/
def freeCmd (n : Nat) : Cmd :=
  if (Config.freeBits n).toNat % 3 = 0 then .init
  else if (Config.freeBits n).toNat % 3 = 1 then .compress else .hash

/-- How many free values one reset action draws. -/
def resetDraws : Nat := 25

/-- The reset action (R701): the registers it leaves unspecified take free values, the buffer becomes unwritten,
the ROMs and the environment stay. -/
def resetAction (s : State) : State :=
  { s with
    fsm := Fsm.idle
    status := Status.reset
    lenLo := 0#32
    lenHi := 0#32
    digest := Quad.zero
    chain := initialValue
    mem := []
    work := freeQuad s.draws
    x := Vector.ofFn fun k => freeWord (s.draws + 4 + k.val)
    i := (Config.freeBits (s.draws + 20)).setWidth 7
    blk := (Config.freeBits (s.draws + 21)).toNat
    nblk := (Config.freeBits (s.draws + 22)).toNat
    lenQ := Config.freeBits (s.draws + 23)
    op := freeCmd (s.draws + 24)
    draws := s.draws + resetDraws }

end Sys2Proof.Machine
end

