-- ==== Sys2Proof/Machine/Commands.lean ====
section
/-! DEFINITION. The meanings of the commands (spec/46_commands.md R544 to R550, spec/60_exceptions.md R602 to R606).
Each is the whole of what the issuing transaction does. -/

namespace Sys2Proof.Machine

/-- NOP: nothing; never rejected (R544). -/
def execNop (s : State) : Host.Outcome State Fault Refusal := .next s

/-- INIT: the IV into `A..D`; the one micro-step left is ASSEMBLE (R545, R605). -/
def execInit (s : State) : Host.Outcome State Fault Refusal :=
  if s.status.busy then .next (reject .busy s)
  else .next { accept .init s with chain := initialValue, fsm := Fsm.assemble }

/-- COMPRESS: one raw block into the chaining registers as they stand (R547, R605). -/
def execCompress (s : State) : Host.Outcome State Fault Refusal :=
  if s.status.busy then .next (reject .busy s)
  else .next { accept .compress s with blk := 0, nblk := 1, fsm := Fsm.load }

/-- HASH: the BUSY check, then the length check, then acceptance (R550, R602, R605, R606). -/
def execHash (s : State) : Host.Outcome State Fault Refusal :=
  if s.status.busy then .next (reject .busy s)
  else if s.msgBytes < (lengthOperand s).toNat then .next (reject .len s)
  else .next
    { accept .hash s with
      lenQ := lengthOperand s
      chain := initialValue
      blk := 0
      nblk := blockCount (lengthOperand s).toNat
      fsm := Fsm.load }

/-- OP 0x4 to 0x7: rejected with CMD whatever the state (R303, R604). -/
def execReservedOp47 (_op : BitVec 4) (s : State) : Host.Outcome State Fault Refusal := .next (reject .cmd s)

/-- OP 0x8 to 0xF: rejected with CMD whatever the state (R303, R604). -/
def execReservedOp8F (_op : BitVec 4) (s : State) : Host.Outcome State Fault Refusal := .next (reject .cmd s)

end Sys2Proof.Machine
end

