-- ==== Sys2Proof/WellFormed.lean ====
section
/-! DEFINITION. Which instruction terms stand for an encoding (spec/30_encoding.md R302, R310, R316). -/

namespace Sys2Proof

/-- OP 0x4 to 0x7: the first reserved row of the opcode table. -/
def inReserved47 (op : BitVec 4) : Bool := 4 ≤ op.toNat && op.toNat ≤ 7

/-- OP 0x8 to 0xF: the second reserved row of the opcode table. -/
def inReserved8F (op : BitVec 4) : Bool := 8 ≤ op.toNat

/-- An instruction is well formed when its operands fit the row that encodes it.
`k` and `s` have exactly their fields' widths, so every value of them is encodable (R310). -/
def Instr.wellFormed : Instr → Bool
  | .nop => true
  | .init => true
  | .compress => true
  | .hash => true
  | .reservedOp47 op => inReserved47 op
  | .reservedOp8F op => inReserved8F op
  | .stepF _ _ => true
  | .stepG _ _ => true
  | .stepH _ _ => true
  | .stepI _ _ => true
  | .load => true
  | .round => true
  | .fold => true
  | .assemble => true

end Sys2Proof
end

