-- ==== Sys2Proof/Decode.lean ====
section
/-! DEFINITION. Decoding and encoding of the three formats: spec/30_encoding.md R300 to R317. -/

namespace Sys2Proof

open Sys2Proof.Machine

/-- Why a word is no instruction. -/
inductive DecodeError where
  /-- fewer bytes than the format's width -/
  | truncated
  /-- a STEPW with a nonzero bit in 15:11 (R310, R315) -/
  | stepReserved
  /-- the code IDLE, which names no micro-step (R560) -/
  | fsmIdle
  /-- a code 5 to 7 (R316) -/
  | fsmUnreachable
  /-- a byte that holds more than the 3 bits of an FSM code -/
  | fsmWide
  deriving DecidableEq, Repr

/-- The command a CTRLW issues: `OP = wdata[3:0]`, bits 31:4 ignored (R301, R302, R303). Total: every word is a command. -/
def decodeCommand (w : Word) : Instr :=
  let op := w.extractLsb' 0 4
  if op = 0#4 then .nop
  else if op = 1#4 then .init
  else if op = 2#4 then .compress
  else if op = 3#4 then .hash
  else if inReserved47 op then .reservedOp47 op
  else .reservedOp8F op

/-- The function an `FN` field selects (R311): all four values are used. -/
def decodeFn (f : BitVec 2) : AuxFn :=
  if f = 0#2 then .F else if f = 1#2 then .G else if f = 2#2 then .H else .I

/-- The fields of a STEPW: FN 1:0, K 5:2, S 10:6, bits 15:11 zero (R310, R312). -/
def decodeMicroword (u : BitVec 16) : Except DecodeError Microword :=
  if u.extractLsb' 11 5 = 0#5 then
    .ok { fn := decodeFn (u.extractLsb' 0 2), k := u.extractLsb' 2 4, s := u.extractLsb' 6 5 }
  else .error .stepReserved

/-- The step instruction a microword stands for (R311). -/
def Microword.toInstr (m : Microword) : Instr :=
  match m.fn with
  | .F => .stepF m.k m.s
  | .G => .stepG m.k m.s
  | .H => .stepH m.k m.s
  | .I => .stepI m.k m.s

/-- The micro-step a sequencer code names (R316, R560). -/
def decodeFsm (c : BitVec 3) : Except DecodeError Instr :=
  if c = Fsm.load then .ok .load
  else if c = Fsm.round then .ok .round
  else if c = Fsm.fold then .ok .fold
  else if c = Fsm.assemble then .ok .assemble
  else if c = Fsm.idle then .error .fsmIdle
  else .error .fsmUnreachable

/-- Decoding bytes, least significant first, in a given format: the format alone tells the length (R317).
Answers the instruction and the bytes after it. -/
def decode : Format → List Byte → Except DecodeError (Instr × List Byte)
  | .ctrlw, b0 :: b1 :: b2 :: b3 :: rest => .ok (decodeCommand (le32 b0 b1 b2 b3), rest)
  | .ctrlw, _ => .error .truncated
  | .stepw, b0 :: b1 :: rest =>
    match decodeMicroword (b1 ++ b0) with
    | .ok m => .ok (m.toInstr, rest)
    | .error e => .error e
  | .stepw, _ => .error .truncated
  | .fsm, b0 :: rest =>
    if b0.toNat < 8 then
      match decodeFsm (b0.setWidth 3) with
      | .ok i => .ok (i, rest)
      | .error e => .error e
    else .error .fsmWide
  | .fsm, _ => .error .truncated

/-! The encoder, written from the same tables. -/

/-- The format an instruction is encoded in (R300). -/
def Instr.format : Instr → Format
  | .nop => .ctrlw
  | .init => .ctrlw
  | .compress => .ctrlw
  | .hash => .ctrlw
  | .reservedOp47 _ => .ctrlw
  | .reservedOp8F _ => .ctrlw
  | .stepF _ _ => .stepw
  | .stepG _ _ => .stepw
  | .stepH _ _ => .stepw
  | .stepI _ _ => .stepw
  | .load => .fsm
  | .round => .fsm
  | .fold => .fsm
  | .assemble => .fsm

/-- A format's width in whole bytes: CTRLW 32 bits, STEPW 16 bits, FSM 3 bits in one byte (R317). -/
def Format.bytes : Format → Nat
  | .ctrlw => 4
  | .stepw => 2
  | .fsm => 1

/-- The CTRLW that issues `op`, with the ignored bits 31:4 zero (R319). -/
def commandWord (op : BitVec 4) : Word := op.setWidth 32

/-- The `FN` value of a function (R311). -/
def fnCode : AuxFn → BitVec 2
  | .F => 0#2
  | .G => 1#2
  | .H => 2#2
  | .I => 3#2

/-- `FN | K<<2 | S<<6`, bits 15:11 zero (R310, R314). -/
def encodeMicroword (m : Microword) : BitVec 16 :=
  (fnCode m.fn).setWidth 16 ||| m.k.setWidth 16 <<< 2 ||| m.s.setWidth 16 <<< 6

/-- The bytes of an instruction, least significant first. -/
def encode : Instr → List Byte
  | .nop => leBytes (commandWord 0#4) 4
  | .init => leBytes (commandWord 1#4) 4
  | .compress => leBytes (commandWord 2#4) 4
  | .hash => leBytes (commandWord 3#4) 4
  | .reservedOp47 op => leBytes (commandWord op) 4
  | .reservedOp8F op => leBytes (commandWord op) 4
  | .stepF k s => leBytes (encodeMicroword { fn := .F, k := k, s := s }) 2
  | .stepG k s => leBytes (encodeMicroword { fn := .G, k := k, s := s }) 2
  | .stepH k s => leBytes (encodeMicroword { fn := .H, k := k, s := s }) 2
  | .stepI k s => leBytes (encodeMicroword { fn := .I, k := k, s := s }) 2
  | .load => leBytes (Fsm.load.setWidth 8) 1
  | .round => leBytes (Fsm.round.setWidth 8) 1
  | .fold => leBytes (Fsm.fold.setWidth 8) 1
  | .assemble => leBytes (Fsm.assemble.setWidth 8) 1

/-- The format of an opcode-table row of `nbits` bits (R317; an FSM row's 3 bits stand in one byte). -/
def formatOfBits (nbits : Nat) : Option Format :=
  if nbits = 32 then some .ctrlw
  else if nbits = 16 then some .stepw
  else if nbits = 8 ∨ nbits = 3 then some .fsm
  else none

/-- The instruction the decoder reads from a table word (notes/assumptions/1.md): the word is laid out least
significant byte first in its format's width and given to `decode`. -/
def decodeTableWord (nbits w : Nat) : Option Instr :=
  match formatOfBits nbits with
  | none => none
  | some f =>
    match decode f (leBytes (BitVec.ofNat 32 w) f.bytes) with
    | .ok (i, _) => some i
    | .error _ => none

end Sys2Proof
end

