-- ==== Sys2Proof/Machine/Alu.lean ====
section
/-! DEFINITION. The step datapath's arithmetic: spec/44_compression_core.md R460 to R468. -/

namespace Sys2Proof.Machine

/-- `rotl(x, s)` for `0 <= s <= 31` (R462). -/
def rotl (x : Word) (s : BitVec 5) : Word :=
  if s = 0#5 then x else x <<< s.toNat ||| x >>> (32 - s.toNat)

/-- `F(x, y, z) = (x & y) | (~x & z)` (R463). -/
def auxF (x y z : Word) : Word := (x &&& y) ||| (~~~x &&& z)

/-- `G(x, y, z) = (x & z) | (y & ~z)` (R464). -/
def auxG (x y z : Word) : Word := (x &&& z) ||| (y &&& ~~~z)

/-- `H(x, y, z) = x ^ y ^ z` (R465). -/
def auxH (x y z : Word) : Word := x ^^^ y ^^^ z

/-- `I(x, y, z) = y ^ (x | ~z)`, with the complement of `z` (R466; 90_conflicts.md C2). -/
def auxI (x y z : Word) : Word := y ^^^ (x ||| ~~~z)

/-- The function an `FN` field names (R311). -/
def auxFn : AuxFn → Word → Word → Word → Word
  | .F => auxF
  | .G => auxG
  | .H => auxH
  | .I => auxI

/-- The generic step of R467 on the working registers, with message word `xk` and constant `ti`:
every right-hand side reads the registers as they stood before it (R468). -/
def stepQuad (fn : AuxFn) (s : BitVec 5) (xk ti : Word) (w : Quad) : Quad :=
  let t := w.a + auxFn fn w.b w.c w.d + xk + ti
  let nb := w.b + rotl t s
  { a := w.d, b := nb, c := w.b, d := w.c }

/-- Element-wise addition modulo 2^32, by position (R490). -/
def addQuad (p q : Quad) : Quad :=
  { a := p.a + q.a, b := p.b + q.b, c := p.c + q.c, d := p.d + q.d }

end Sys2Proof.Machine
end

