-- ==== Sys2Proof/Machine/Steps.lean ====
section
/-! DEFINITION. The meanings of the four step operations (spec/44_compression_core.md R467 to R473). -/

namespace Sys2Proof.Machine

/-- `STEP(fn, k, s, i)` on the state: the constant's index is `i` itself (R467); an index outside 1..64 is a model
fault (spec/41_constant_rom.md R404). -/
def stepOperation (fn : AuxFn) (k : BitVec 4) (sh : BitVec 5) (s : State) : Host.Outcome State Fault Refusal :=
  match constantOperand s with
  | none => .fault .romIndex
  | some t => .next { s with work := stepQuad fn sh (scheduleOperand s k) t s.work }

/-- STEP_F k, s (R470). -/
def execStepF (k : BitVec 4) (sh : BitVec 5) (s : State) : Host.Outcome State Fault Refusal := stepOperation .F k sh s

/-- STEP_G k, s (R471). -/
def execStepG (k : BitVec 4) (sh : BitVec 5) (s : State) : Host.Outcome State Fault Refusal := stepOperation .G k sh s

/-- STEP_H k, s (R472). -/
def execStepH (k : BitVec 4) (sh : BitVec 5) (s : State) : Host.Outcome State Fault Refusal := stepOperation .H k sh s

/-- STEP_I k, s (R473). -/
def execStepI (k : BitVec 4) (sh : BitVec 5) (s : State) : Host.Outcome State Fault Refusal := stepOperation .I k sh s

end Sys2Proof.Machine
end

