-- ==== Sys2Proof/Machine/Sequencer.lean ====
section
/-! DEFINITION. The meanings of the engine's micro-steps: LOAD (spec/43_block_decoder.md R440), ROUND and FOLD
(spec/44_compression_core.md R474, R490), ASSEMBLE (spec/45_digest_assembler.md R521). -/

namespace Sys2Proof.Machine

/-- LOAD: all 16 schedule words, the working registers, the step index (R440). -/
def execLoad (s : State) : Host.Outcome State Fault Refusal :=
  match collectWords (scheduleWord s) 16 with
  | .error f => .fault f
  | .ok x => .next { s with x := x, work := s.chain, i := 1#7, fsm := Fsm.round }

/-- The step a microword's fields select (R474; spec/30_encoding.md R311). -/
def execMicroword (m : Microword) (s : State) : Host.Outcome State Fault Refusal :=
  match m.fn with
  | .F => execStepF m.k m.s s
  | .G => execStepG m.k m.s s
  | .H => execStepH m.k m.s s
  | .I => execStepI m.k m.s s

/-- What ROUND does after its step: at `i = 64` on to FOLD with `i` left at 64, else `i + 1` (R474). -/
def advanceRound (s : State) : State :=
  if s.i = 64#7 then { s with fsm := Fsm.fold } else { s with i := s.i + 1#7 }

/-- The microword the datapath fetches, `SROM[i]`: an index outside 1..64 is a model fault (spec/41_constant_rom.md R404),
and so is an entry that is not R314's (spec/30_encoding.md R315). Nothing else reaches the datapath. -/
def fetchMicroword (s : State) : Except Fault Microword :=
  match microwordOperand s with
  | none => .error .romIndex
  | some u =>
    if romEntry stepRom s.i = some u then
      match decodeMicroword u with
      | .ok m => .ok m
      | .error _ => .error .stepRomEntry
    else .error .stepRomEntry

/-- ROUND: the step of `SROM[i]`, then on to the next (R474). -/
def execRound (s : State) : Host.Outcome State Fault Refusal :=
  match fetchMicroword s with
  | .error f => .fault f
  | .ok m =>
    match execMicroword m s with
    | .next t => .next (advanceRound t)
    | .fault f => .fault f
    | .refused r => .refused r

/-- FOLD: the working registers into the chaining registers, then the next block or ASSEMBLE (R490). -/
def execFold (s : State) : Host.Outcome State Fault Refusal :=
  .next
    { s with
      chain := addQuad s.chain s.work
      blk := s.blk + 1
      fsm := if s.blk + 1 < s.nblk then Fsm.load else Fsm.assemble }

/-- ASSEMBLE: DIGEST, BUSY and DONE in one micro-step (R521). -/
def execAssemble (s : State) : Host.Outcome State Fault Refusal :=
  .next { s with digest := s.chain, status := statusCompleted s.status, fsm := Fsm.idle }

end Sys2Proof.Machine
end

