-- ==== Sys2Proof/Machine/Dispatch.lean ====
section
/-! DEFINITION. One arm per row of spec/opcode_table.json. -/

namespace Sys2Proof.Machine

def exec (i : Instr) (s : State) : Host.Outcome State Fault Refusal :=
  match i with
  -- CTRLW
  | .nop => Sys2Proof.Machine.execNop s
  | .init => Sys2Proof.Machine.execInit s
  | .compress => Sys2Proof.Machine.execCompress s
  | .hash => Sys2Proof.Machine.execHash s
  | .reservedOp47 op => Sys2Proof.Machine.execReservedOp47 op s
  | .reservedOp8F op => Sys2Proof.Machine.execReservedOp8F op s
  -- STEPW
  | .stepF k sh => Sys2Proof.Machine.execStepF k sh s
  | .stepG k sh => Sys2Proof.Machine.execStepG k sh s
  | .stepH k sh => Sys2Proof.Machine.execStepH k sh s
  | .stepI k sh => Sys2Proof.Machine.execStepI k sh s
  -- FSM
  | .load => Sys2Proof.Machine.execLoad s
  | .round => Sys2Proof.Machine.execRound s
  | .fold => Sys2Proof.Machine.execFold s
  | .assemble => Sys2Proof.Machine.execAssemble s

end Sys2Proof.Machine
end

