-- ==== Sys2Proof/Machine/Bus.lean ====
section
/-! DEFINITION. Bus transactions over the address map (spec/20_memory.md R201 to R211, spec/10_state.md R120 to R125). -/

namespace Sys2Proof.Machine

/-- The regions of the 16-bit address space (R211). -/
inductive Region where
  | ctrl
  | status
  | lenLo
  | lenHi
  /-- DIGEST`n` -/
  | digest (n : Nat)
  /-- 0x0020 to 0x7FFF -/
  | reserved
  /-- the buffer word at byte offset `off`, a multiple of 4 -/
  | msgbuf (off : Nat)
  /-- above the buffer -/
  | unmapped
  deriving DecidableEq, Repr

/-- The aligned word a transaction addresses: `addr & 0xFFFC` (R208). -/
def wordAddress (addr : BitVec 16) : Nat := (addr &&& 0xFFFC#16).toNat

/-- The region of an aligned word address, for a buffer of `msgBytes` bytes (R211). The buffer's window is the upper half
of the space, so an address in it has its buffer offset in the low 15 bits. -/
def regionOf (msgBytes a : Nat) : Region :=
  if a = 0x0000 then .ctrl
  else if a = 0x0004 then .status
  else if a = 0x0008 then .lenLo
  else if a = 0x000C then .lenHi
  else if a < 0x0020 then .digest ((a - 0x0010) / 4)
  else if a < 0x8000 then .reserved
  else if a < 0x8000 + msgBytes then .msgbuf (a % 0x8000)
  else .unmapped

/-- The region a transaction of this state addresses. -/
def addressed (s : State) (addr : BitVec 16) : Region := regionOf s.msgBytes (wordAddress addr)

/-- DIGEST`n` (R124). -/
def digestWord (q : Quad) (n : Nat) : Word :=
  if n = 0 then q.a else if n = 1 then q.b else if n = 2 then q.c else q.d

/-- What the host reads from buffer byte `off`: the byte, or the free value `draw` where it is unwritten (R205). -/
def hostByte (m : Memory) (off draw : Nat) : Byte :=
  match Memory.get m off with
  | some b => b
  | none => (Config.freeBits draw).setWidth 8

/-- The word a read returns (R211); buffer bytes stand in their lanes, little-endian (R204). -/
def busReadWord (s : State) (addr : BitVec 16) : Word :=
  match addressed s addr with
  | .ctrl => 0#32
  | .status => statusWord s.status
  | .lenLo => s.lenLo
  | .lenHi => s.lenHi
  | .digest n => digestWord s.digest n
  | .reserved => 0#32
  | .msgbuf off =>
    le32 (hostByte s.mem off s.draws) (hostByte s.mem (off + 1) (s.draws + 1))
      (hostByte s.mem (off + 2) (s.draws + 2)) (hostByte s.mem (off + 3) (s.draws + 3))
  | .unmapped => 0#32

/-- `BusRead(addr)`: returns the word and has no side effect on MDE (R209). Four free values are set aside for the lanes. -/
def busRead (addr : BitVec 16) (s : State) : State :=
  { s with reads := busReadWord s addr :: s.reads, draws := s.draws + 4 }

/-- What a write stores: LEN and the buffer when BUSY = 0, nothing elsewhere (R211; spec/10_state.md R123). -/
def storeWrite (r : Region) (be : BitVec 4) (wdata : Word) (s : State) : State :=
  if s.status.busy then s
  else
    match r with
    | .ctrl => s
    | .status => s
    | .lenLo => { s with lenLo := mergeLanes be s.lenLo wdata }
    | .lenHi => { s with lenHi := mergeLanes be s.lenHi wdata }
    | .digest _ => s
    | .reserved => s
    | .msgbuf off => { s with mem := writeLanes be wdata off s.mem }
    | .unmapped => s

/-- `BusWrite(addr, be, wdata)`: a write of CTRL with `be[0] = 1` issues the command of `wdata[3:0]` within the same
transaction (spec/46_commands.md R540); one with `be[0] = 0` has no effect (spec/10_state.md R120). -/
def busWrite (addr : BitVec 16) (be : BitVec 4) (wdata : Word) (s : State) : Host.Outcome State Fault Refusal :=
  if addressed s addr = .ctrl then
    if be.getLsbD 0 then exec (decodeCommand wdata) s else .next s
  else .next (storeWrite (addressed s addr) be wdata s)

end Sys2Proof.Machine
end

