-- ==== Sys2Proof/Machine/Agents.lean ====
section
/-! DEFINITION. The agents and whose turn it is: the host, the engine and reset (spec/00_scope.md R18,
spec/46_commands.md R560, R562, spec/70_reset_and_hazards.md R700). -/

namespace Sys2Proof.Machine

/-- The engine's turn: the micro-step `fsm` names; none in IDLE (R560); a model fault on codes 5 to 7 (R111). -/
def engineTurn (s : State) : Host.Outcome State Fault Refusal :=
  if s.fsm = Fsm.idle then .next s
  else
    match decodeFsm s.fsm with
    | .ok i => exec i s
    | .error _ => .fault .unreachableFsm

/-- One read of a POLL: the loop ends when the result has bit 0 = 0 (spec/30_encoding.md R319). -/
def pollTurn (rest : List HostOp) (s : State) : State :=
  if (busReadWord s 0x0004#16).getLsbD 0 then busRead 0x0004#16 s
  else { busRead 0x0004#16 s with host := rest }

/-- The host's turn: its next transaction, if it has one. -/
def hostTurn (s : State) : Host.Outcome State Fault Refusal :=
  match s.host with
  | [] => .next s
  | .write addr be wdata :: rest => busWrite addr be wdata { s with host := rest }
  | .read addr :: rest => .next (busRead addr { s with host := rest })
  | .poll :: rest => .next (pollTurn rest s)

/-- A turn of the datapath alone (notes/assumptions/9.md): the step instruction that `SROM[i]` encodes. -/
def datapathTurn (s : State) : Host.Outcome State Fault Refusal :=
  match fetchMicroword s with
  | .ok m => exec m.toInstr s
  | .error f => .fault f

/-- The host's transaction while `rst = 1`: a write is ignored, a read returns 0 (R700). -/
def hostInReset (s : State) : State :=
  match s.host with
  | [] => s
  | .write _ _ _ :: rest => { s with host := rest }
  | .read _ :: rest => { s with host := rest, reads := 0#32 :: s.reads }
  | .poll :: rest => { s with host := rest, reads := 0#32 :: s.reads }

/-- One turn. While `rst = 1` every turn is a rising edge that performs the reset action, bus transactions have no
effect and the engine takes no micro-step (R700). -/
def takeTurn : Turn → State → Host.Outcome State Fault Refusal
  | .rst level, s => if level then .next (resetAction { s with rst := true }) else .next { s with rst := false }
  | .host, s => if s.rst then .next (resetAction (hostInReset s)) else hostTurn s
  | .engine, s => if s.rst then .next (resetAction s) else engineTurn s
  | .datapath, s => if s.rst then .next (resetAction s) else datapathTurn s

/-- The next turn: the next of `sched`; with none left, the engine's while it has a step, else the host's
(weak fairness, R562; notes/assumptions/7.md). -/
def nextTurn (s : State) : Turn :=
  match s.sched with
  | t :: _ => t
  | [] => if s.fsm = Fsm.idle then .host else .engine

/-- The state whose next turn has been taken off `sched`. -/
def popTurn (s : State) : State := { s with sched := s.sched.tail }

/-- One step of the machine in its environment. -/
def machineStep (s : State) : Host.Outcome State Fault Refusal := takeTurn (nextTurn s) (popTurn s)

end Sys2Proof.Machine
end

