-- ==== Sys2Proof/Machine/Fetch.lean ====
section
/-! DEFINITION. Where each format's next instruction is taken from (spec/30_encoding.md R300): a CTRLW from the host's next
write of CTRL, an FSM code from `fsm`, a STEPW from the step-ROM entry of the step index (notes/assumptions/9.md, 10.md). -/

namespace Sys2Proof.Machine

/-- A step index the ROMs have an entry for: the current one, or 1. -/
def fetchIndex (s : State) : BitVec 7 := if (romEntry s.romT s.i).isSome then s.i else 1#7

/-- Where a STEPW is fetched from: the address `i - 1` of the step ROM that holds the word (R310), or the address of a step
index in range for a word that no entry is equal to. -/
def romAddress (s : State) (u : BitVec 16) : Fin 64 :=
  if h : stepTable.idxOf u < 64 then ⟨stepTable.idxOf u, h⟩
  else if h : 1 ≤ s.i.toNat ∧ s.i.toNat ≤ 64 then ⟨s.i.toNat - 1, by omega⟩
  else 0

/-- The state whose next step runs the instruction of a table word (notes/assumptions/10.md). -/
def placeWord (s : State) (nbits w : Nat) : State :=
  match formatOfBits nbits with
  | none => s
  | some .ctrlw =>
    { s with
      rst := false
      sched := .host :: s.sched
      host := .write 0x0000#16 0xF#4 (BitVec.ofNat 32 w) :: s.host }
  | some .stepw =>
    let u := BitVec.ofNat 16 w
    let n := romAddress s u
    { s with
      rst := false
      sched := .datapath :: s.sched
      i := BitVec.ofNat 7 (n.val + 1)
      srom := s.srom.set n.val u n.isLt }
  | some .fsm =>
    { s with
      rst := false
      sched := .engine :: s.sched
      fsm := BitVec.ofNat 3 w
      op := if w = 1 then .hash else s.op
      i := if w = 2 then fetchIndex s else s.i }

end Sys2Proof.Machine
end

