-- ==== Sys2Proof/Machine/Step.lean ====
section
/-! DEFINITION. One step of MDE in its environment, and the placing of one instruction for the next step. -/

namespace Sys2Proof.Machine

/-- One step: one host transaction, one engine micro-step or one reset edge (spec/20_memory.md R213). -/
def step (s : State) : Host.Outcome State Fault Refusal := Sys2Proof.Machine.machineStep s

/-- The state whose next step fetches and runs the instruction of a table word (notes/assumptions/10.md). -/
def State.withFetchWord (s : State) (nbits w : Nat) : State := Sys2Proof.Machine.placeWord s nbits w

end Sys2Proof.Machine
end

