-- ==== Sys2Proof/Machine/Reference.lean ====
section
/-! DEFINITION. The algorithm as pure functions, for statements: the source's per-round table (spec/30_encoding.md R313),
the compression function (spec/44_compression_core.md R491), padding as the source gives it (spec/42_padding.md R420),
the digest of a message (spec/46_commands.md R551) and its bytes and text (spec/45_digest_assembler.md R522, R526). -/

namespace Sys2Proof.Machine

/-- The k sequence of a round 0..3 (R313). -/
def kSequence (r : Nat) : List (BitVec 4) :=
  if r = 0 then [0, 1, 2, 3, 4, 5, 6, 7, 8, 9, 10, 11, 12, 13, 14, 15]
  else if r = 1 then [1, 6, 11, 0, 5, 10, 15, 4, 9, 14, 3, 8, 13, 2, 7, 12]
  else if r = 2 then [5, 8, 11, 14, 1, 4, 7, 10, 13, 0, 3, 6, 9, 12, 15, 2]
  else [0, 7, 14, 5, 12, 3, 10, 1, 8, 15, 6, 13, 4, 11, 2, 9]

/-- The rotation cycle of a round 0..3 (R313). -/
def rotationCycle (r : Nat) : List (BitVec 5) :=
  if r = 0 then [7, 12, 17, 22]
  else if r = 1 then [5, 9, 14, 20]
  else if r = 2 then [4, 11, 16, 23]
  else [6, 10, 15, 21]

/-- The auxiliary function of a round 0..3 (R313). -/
def roundFn (r : Nat) : AuxFn := if r = 0 then .F else if r = 1 then .G else if r = 2 then .H else .I

/-- The parameters of step `i` in 1..64, from the per-round table (R313). -/
def stepParams (i : Nat) : Microword :=
  let r := (i - 1) / 16
  { fn := roundFn r, k := (kSequence r).getD ((i - 1) % 16) 0, s := (rotationCycle r).getD ((i - 1) % 4) 0 }

/-- Step `i` of the compression function on the working registers (R467, R491). -/
def refStep (x : Vector Word 16) (w : Quad) (i : Nat) : Quad :=
  let p := stepParams i
  stepQuad p.fn p.s (x[p.k.toNat]'p.k.isLt) (constantTable.getD (i - 1) 0) w

/-- The working registers after steps 1 to `n` (R491). -/
def refSteps (x : Vector Word 16) (w : Quad) : Nat → Quad
  | 0 => w
  | n + 1 => refStep x (refSteps x w n) (n + 1)

/-- `Compress((A, B, C, D), X[0..15])` (R491). -/
def compressBlock (cv : Quad) (x : Vector Word 16) : Quad := addQuad cv (refSteps x cv 64)

/-- The message padded by the source's three steps (R420): the terminator, zeros until the length in bits is 448 mod 512,
the length in bits modulo 2^64 as eight little-endian bytes. -/
def paddedMessage (m : List Byte) : List Byte :=
  m ++ [0x80#8] ++ List.replicate ((119 - m.length % 64) % 64) 0x00#8 ++ leBytes (BitVec.ofNat 64 (m.length * 8)) 8

/-- The 16 words of block `n` of a byte sequence, little-endian (spec/43_block_decoder.md R441). -/
def blockWords (bs : List Byte) (n : Nat) : Vector Word 16 :=
  Vector.ofFn fun w =>
    le32 (bs.getD (64 * n + 4 * w.val) 0) (bs.getD (64 * n + 4 * w.val + 1) 0)
      (bs.getD (64 * n + 4 * w.val + 2) 0) (bs.getD (64 * n + 4 * w.val + 3) 0)

/-- The chaining value after blocks `0 .. n-1` of a byte sequence (R551). -/
def chainBlocks (bs : List Byte) (cv : Quad) : Nat → Quad
  | 0 => cv
  | n + 1 => compressBlock (chainBlocks bs cv n) (blockWords bs n)

/-- `Digest(M)` (R551). -/
def digestOf (m : List Byte) : Quad := chainBlocks (paddedMessage m) initialValue (blockCount m.length)

/-- The 16 digest bytes `D[4n + j] = byte_j(DIGESTn)` (R522). -/
def digestBytes (q : Quad) : List Byte := leBytes q.a 4 ++ leBytes q.b 4 ++ leBytes q.c 4 ++ leBytes q.d 4

/-- One lowercase hexadecimal digit. -/
def hexDigit (n : Nat) : Char := "0123456789abcdef".toList.getD n '0'

/-- The host's rendering: two lowercase hex digits a byte, high nibble first, no prefix (R526). -/
def renderHex (bs : List Byte) : List Char := bs.flatMap fun b => [hexDigit (b.toNat / 16), hexDigit (b.toNat % 16)]

end Sys2Proof.Machine
end

