-- ==== Sys2Proof/Safety.lean ====
section
/-! DEFINITION. What holds of every state a run reaches, and what a safe run is, in the terms claims use. -/

namespace Sys2Proof.Machine

/-- A command is processing a block: LOAD, ROUND or FOLD is next. -/
def State.inBlock (s : State) : Prop := s.fsm = Fsm.load ∨ s.fsm = Fsm.round ∨ s.fsm = Fsm.fold

/-- The invariant of the model: what every step keeps. -/
structure State.Inv (s : State) : Prop where
  /-- MSG_BYTES is a capacity R11 allows -/
  capacity : Config.legalCapacity s.msgBytes
  /-- the buffer's list is in its canonical form -/
  bufferSorted : Memory.wf s.mem
  /-- only bytes of the buffer are listed (R204) -/
  bufferBounded : ∀ c ∈ s.mem, c.1 < s.msgBytes
  /-- the constant ROM never changes (R109) -/
  constants : s.romT = constantRom
  /-- the step ROM never changes (R110, R315) -/
  steps : s.srom = stepRom
  /-- codes 5 to 7 are never reached (R111) -/
  fsmCode : s.fsm.toNat ≤ 4
  /-- BUSY mirrors the sequencer (R563) -/
  busyMirrors : s.status.busy = true ↔ s.fsm ≠ Fsm.idle
  /-- BUSY = 1 implies DONE = 0 (R121) -/
  busyNotDone : s.status.busy = true → s.status.done = false
  /-- ERR = 0 implies ERRCODE = 0, ERR = 1 implies ERRCODE is 1, 2 or 3 (R121) -/
  errHasCode : s.status.err = false ↔ s.status.errcode = .none
  /-- `i` never holds 0 or 65 during the rounds of a block (R113) -/
  roundIndex : s.fsm = Fsm.round → 1 ≤ s.i.toNat ∧ s.i.toNat ≤ 64
  /-- the block being processed is one of the command's blocks (R443) -/
  blockIndex : s.inBlock → s.blk < s.nblk
  /-- only COMPRESS and HASH process blocks (R542) -/
  blockCommand : s.inBlock → s.op = .compress ∨ s.op = .hash
  /-- a COMPRESS processes one block (R547) -/
  compressBlocks : s.inBlock → s.op = .compress → s.nblk = 1
  /-- a HASH runs on a length the buffer holds, latched from LEN, and on P(L)/64 blocks (R115, R550) -/
  hashLength : s.inBlock → s.op = .hash →
    s.lenQ = lengthOperand s ∧ s.lenQ.toNat ≤ s.msgBytes ∧ s.nblk = blockCount s.lenQ.toNat
  /-- a completed command's result stays in both DIGEST and `A..D` until the next acceptance (R524, R525) -/
  doneDigest : s.status.done = true → s.digest = s.chain

/-- The buffer holds the message `m` at offsets `0 .. m.length - 1`. -/
def State.holdsMessage (s : State) (m : List Byte) : Prop :=
  m.length ≤ s.msgBytes ∧ ∀ j : Nat, ∀ h : j < m.length, Memory.get s.mem j = some m[j]

/-- The engine runs undisturbed: reset is not asserted, and no turn and no transaction of anyone else is pending. -/
def State.undisturbed (s : State) : Prop := s.rst = false ∧ s.sched = [] ∧ s.host = []

/-- Every item the reset action gives a value has that value (R701); the registers it leaves unspecified are not named. -/
def State.hasResetValues (t : State) : Prop :=
  t.fsm = Fsm.idle ∧ statusWord t.status = 0#32 ∧ t.lenLo = 0#32 ∧ t.lenHi = 0#32 ∧
  t.digest = { a := 0#32, b := 0#32, c := 0#32, d := 0#32 } ∧
  t.chain = { a := 0x67452301#32, b := 0xEFCDAB89#32, c := 0x98BADCFE#32, d := 0x10325476#32 } ∧
  ∀ off, Memory.get t.mem off = none

/-- Every byte of the buffer reads the same in both states. -/
def sameBuffer (s t : State) : Prop := ∀ off, Memory.get t.mem off = Memory.get s.mem off

/-- The ROMs, the parameter and the environment are the same in both states: what no instruction writes. -/
def sameSurroundings (s t : State) : Prop :=
  t.romT = s.romT ∧ t.srom = s.srom ∧ t.msgBytes = s.msgBytes ∧ t.rst = s.rst ∧ t.host = s.host ∧
  t.sched = s.sched ∧ t.reads = s.reads ∧ t.draws = s.draws

/-- The host-visible registers LEN_LO, LEN_HI and the buffer are the same: what the engine never writes (R206). -/
def sameHostStorage (s t : State) : Prop := t.lenLo = s.lenLo ∧ t.lenHi = s.lenHi ∧ sameBuffer s t

/-- Everything a running command depends on or writes is the same: all but ERR, ERRCODE, LEN and the environment. -/
def sameDatapath (s t : State) : Prop :=
  t.chain = s.chain ∧ t.work = s.work ∧ t.x = s.x ∧ t.romT = s.romT ∧ t.srom = s.srom ∧ t.fsm = s.fsm ∧ t.op = s.op ∧
  t.i = s.i ∧ t.blk = s.blk ∧ t.nblk = s.nblk ∧ t.lenQ = s.lenQ ∧ t.status.busy = s.status.busy ∧
  t.status.done = s.status.done ∧ t.digest = s.digest ∧ t.mem = s.mem ∧ t.msgBytes = s.msgBytes

/-- A turn that is a step of one of the two agents, not a step of reset and not one of the datapath alone. -/
def Turn.isAgent : Turn → Bool
  | .host => true
  | .engine => true
  | .rst _ => false
  | .datapath => false

/-- A run of `n` steps is safe when it ends in a state: no fault and no refusal on the way. -/
def SafeRun (n : Nat) (s : State) : Prop := ∃ t, Host.Core.run Sys2Proof.core n s = .next t

end Sys2Proof.Machine
end

