-- ==== Sys2Proof/Certificates/Slice0/Obligations.lean ====
section
/-! DEFINITION. The statements for the provers, from the numbered rules of spec/. -/

open Sys2Proof Sys2Proof.Machine

/-! ## Reset -/

/-- The state after reset holds every value R701 gives; the ROMs hold the tables of R402 and R314. -/
def Obligations.ResetStateHoldsSpecValues : Prop :=
  State.reset.hasResetValues ∧ State.reset.romT = constantRom ∧ State.reset.srom = stepRom

/-- R701: a reset edge from any state gives every item the value of R701, and leaves the ROMs, MSG_BYTES and the host's
transactions as they were. -/
def Obligations.ResetEdgeFromAnyState : Prop :=
  ∀ (s : State) (ts : List Turn), s.sched = .rst true :: ts →
    ∃ t, step s = .next t ∧ t.hasResetValues ∧ t.romT = s.romT ∧ t.srom = s.srom ∧ t.msgBytes = s.msgBytes ∧
      t.host = s.host ∧ t.reads = s.reads

/-- R700: while `rst = 1` a write is ignored, a read returns 0, the engine takes no micro-step, and each edge resets. -/
def Obligations.RstHighIgnoresBusAndEngine : Prop :=
  ∀ (s : State), s.rst = true →
    (∀ addr be wdata rest, nextTurn s = .host → s.host = .write addr be wdata :: rest →
      ∃ t, step s = .next t ∧ t.hasResetValues ∧ t.host = rest ∧ t.reads = s.reads) ∧
    (∀ addr rest, nextTurn s = .host → s.host = .read addr :: rest →
      ∃ t, step s = .next t ∧ t.hasResetValues ∧ t.host = rest ∧ t.reads = 0#32 :: s.reads) ∧
    (nextTurn s = .engine →
      ∃ t, step s = .next t ∧ t.hasResetValues ∧ t.host = s.host ∧ t.reads = s.reads)

/-! ## Encodings -/

/-- Decoding an encoded well-formed instruction gives it back and leaves the bytes after it. -/
def Obligations.DecodeOfEncode : Prop :=
  ∀ (i : Instr) (rest : List Byte), i.wellFormed = true → decode i.format (encode i ++ rest) = .ok (i, rest)

/-- A STEPW or FSM word has one meaning: whatever decodes to an instruction is that instruction's encoding. -/
def Obligations.EncodeOfDecodedMicroword : Prop :=
  ∀ (f : Format) (bs rest : List Byte) (i : Instr), f ≠ .ctrlw → decode f bs = .ok (i, rest) →
    i.format = f ∧ bs = encode i ++ rest

/-- R302: the command of a CTRLW is decided by OP = bits 3:0 alone, by the table of opcodes. -/
def Obligations.CommandDecodedByLowFourBits : Prop :=
  ∀ w : Word,
    decodeCommand w =
      if w.toNat % 16 = 0 then .nop
      else if w.toNat % 16 = 1 then .init
      else if w.toNat % 16 = 2 then .compress
      else if w.toNat % 16 = 3 then .hash
      else if w.toNat % 16 < 8 then .reservedOp47 (BitVec.ofNat 4 (w.toNat % 16))
      else .reservedOp8F (BitVec.ofNat 4 (w.toNat % 16))

/-- Words written out from the layouts of R301, R310 and R316 decode to the instructions they stand for. -/
def Obligations.WrittenOutWordsDecode : Prop :=
  decodeTableWord 32 0xFFFFFFF3 = some .hash ∧ decodeTableWord 32 0x00000010 = some .nop ∧
  decodeTableWord 32 0x0000000A = some (.reservedOp8F 0xA#4) ∧
  decodeTableWord 16 0x01C0 = some (.stepF 0 7) ∧ decodeTableWord 16 0x0259 = some (.stepG 6 9) ∧
  decodeTableWord 16 0x05CA = some (.stepH 2 23) ∧ decodeTableWord 16 0x0567 = some (.stepI 9 21) ∧
  decodeTableWord 16 0x0800 = none ∧ decodeTableWord 8 3 = some .fold ∧ decodeTableWord 8 5 = none

/-- R313: entry `i` of the step ROM encodes entry `(i-1) mod 16` of its round's k sequence and `cycle[(i-1) mod 4]`. -/
def Obligations.StepRomEncodesRoundTable : Prop :=
  ∀ i : Nat, 1 ≤ i → i ≤ 64 →
    ∃ u, romEntry stepRom (BitVec.ofNat 7 i) = some u ∧
      decodeMicroword u = .ok
        { fn := roundFn ((i - 1) / 16)
          k := (kSequence ((i - 1) / 16)).getD ((i - 1) % 16) 0
          s := (rotationCycle ((i - 1) / 16)).getD ((i - 1) % 4) 0 }

/-! ## The step datapath -/

/-- R462: `rotl` is the formula of the rule, bit `n` of the result is bit `(n - s) mod 32` of `x`, and the step ROM presents
only the amounts the rule lists. -/
def Obligations.RotlMovesEveryBit : Prop :=
  (∀ (x : Word) (s : BitVec 5),
    rotl x 0#5 = x ∧
    (s ≠ 0#5 → rotl x s = x <<< s.toNat ||| x >>> (32 - s.toNat)) ∧
    ∀ n < 32, (rotl x s).getLsbD n = x.getLsbD ((n + 32 - s.toNat) % 32)) ∧
  ∀ (i : BitVec 7) (u : BitVec 16) (m : Microword), romEntry stepRom i = some u → decodeMicroword u = .ok m →
    m.s.toNat ∈ [4, 5, 6, 7, 9, 10, 11, 12, 14, 15, 16, 17, 20, 21, 22, 23]

/-- The truth tables of R463 to R466: F and G select, H is the parity, I is `y ^ (x | ~z)`, bit by bit. -/
def Obligations.AuxiliaryFunctionsBitByBit : Prop :=
  ∀ (x y z : Word), ∀ n < 32,
    (auxF x y z).getLsbD n = (if x.getLsbD n then y.getLsbD n else z.getLsbD n) ∧
    (auxG x y z).getLsbD n = (if z.getLsbD n then x.getLsbD n else y.getLsbD n) ∧
    ((auxH x y z).getLsbD n = true ↔
      ((x.getLsbD n).toNat + (y.getLsbD n).toNat + (z.getLsbD n).toNat) % 2 = 1) ∧
    ((auxI x y z).getLsbD n = true ↔ ¬ (y.getLsbD n = true ↔ (x.getLsbD n = true ∨ z.getLsbD n = false)))

/-- The result of R467: each step operation gives `a, b, c, d <- d, b + rotl(a + fn(b,c,d) + X[k] + T[i], s), b, c` and changes
nothing else. That exec gives it at every index 1..64, and not only at the sixteen of the function's round (R470 to R473), and
for every k and s, and not only those of R314's entries (R315), is the model's choice: notes/assumptions/9.md and 13.md. -/
def Obligations.StepOperationsResult : Prop :=
  ∀ (s : State) (k : BitVec 4) (sh : BitVec 5) (n : Fin 64), s.i.toNat = n.val + 1 →
    let after (fn : Word → Word → Word → Word) : State :=
      { s with work :=
        { a := s.work.d
          b := s.work.b +
            rotl (s.work.a + fn s.work.b s.work.c s.work.d + s.x[k.toNat]'k.isLt + s.romT[n.val]) sh
          c := s.work.b
          d := s.work.c } }
    exec (.stepF k sh) s = .next (after auxF) ∧ exec (.stepG k sh) s = .next (after auxG) ∧
    exec (.stepH k sh) s = .next (after auxH) ∧ exec (.stepI k sh) s = .next (after auxI)

/-- R404: with a step index outside 1..64 the steps and ROUND fault; no value is returned. -/
def Obligations.RomIndexOutsideFaults : Prop :=
  ∀ (s : State) (k : BitVec 4) (sh : BitVec 5), (s.i.toNat = 0 ∨ 64 < s.i.toNat) →
    exec (.stepF k sh) s = .fault .romIndex ∧ exec (.stepG k sh) s = .fault .romIndex ∧
    exec (.stepH k sh) s = .fault .romIndex ∧ exec (.stepI k sh) s = .fault .romIndex ∧
    exec .round s = .fault .romIndex

/-- Frame of the four steps: only the working registers change. -/
def Obligations.StepOperationsFrame : Prop :=
  ∀ (s t : State) (k : BitVec 4) (sh : BitVec 5) (i : Instr),
    (i = .stepF k sh ∨ i = .stepG k sh ∨ i = .stepH k sh ∨ i = .stepI k sh) → exec i s = .next t →
    sameSurroundings s t ∧ sameHostStorage s t ∧ t.chain = s.chain ∧ t.x = s.x ∧ t.fsm = s.fsm ∧ t.op = s.op ∧
    t.i = s.i ∧ t.blk = s.blk ∧ t.nblk = s.nblk ∧ t.lenQ = s.lenQ ∧ t.status = s.status ∧ t.digest = s.digest

/-! ## The micro-steps -/

/-- R474: with the ROMs as manufactured, ROUND performs step `i` of the source's table with `T[i]`, then goes on to `i + 1`,
or to FOLD with `i` left at 64. -/
def Obligations.RoundPerformsStepOfTable : Prop :=
  ∀ s : State, s.romT = constantRom → s.srom = stepRom → 1 ≤ s.i.toNat → s.i.toNat ≤ 64 →
    exec .round s = .next
      (if s.i.toNat = 64 then { s with work := refStep s.x s.work s.i.toNat, fsm := 3#3 }
       else { s with work := refStep s.x s.work s.i.toNat, i := BitVec.ofNat 7 (s.i.toNat + 1) })

/-- ROUND fetches the microword `SROM[i]` and runs the step instruction it decodes to, then advances (R474). -/
def Obligations.RoundRunsFetchedMicroword : Prop :=
  ∀ (s t : State) (u : BitVec 16) (i : Instr), romEntry s.srom s.i = some u → romEntry stepRom s.i = some u →
    decodeTableWord 16 u.toNat = some i → exec i s = .next t →
    exec .round s = .next
      (if s.i.toNat = 64 then { t with fsm := 3#3 } else { t with i := BitVec.ofNat 7 (s.i.toNat + 1) })

/-- R315: a step-ROM entry that is not R314's makes ROUND fault, and a turn of the datapath alone (notes/assumptions/9.md): no
such word reaches the datapath. -/
def Obligations.ForeignStepRomEntryFaults : Prop :=
  ∀ (s : State) (n : Fin 64), s.i.toNat = n.val + 1 → s.srom[n.val] ≠ stepRom[n.val] →
    exec .round s = .fault .stepRomEntry ∧
    (s.rst = false → nextTurn s = .datapath → step s = .fault .stepRomEntry)

/-- R490: FOLD adds element-wise modulo 2^32, counts the block, and goes to LOAD while a block is left, else to ASSEMBLE. -/
def Obligations.FoldAddsAndMovesOn : Prop :=
  ∀ s : State,
    exec .fold s = .next
      { s with
        chain :=
          { a := BitVec.ofNat 32 (s.chain.a.toNat + s.work.a.toNat)
            b := BitVec.ofNat 32 (s.chain.b.toNat + s.work.b.toNat)
            c := BitVec.ofNat 32 (s.chain.c.toNat + s.work.c.toNat)
            d := BitVec.ofNat 32 (s.chain.d.toNat + s.work.d.toNat) }
        blk := s.blk + 1
        fsm := if s.blk + 1 < s.nblk then 1#3 else 4#3 }

/-- R521: ASSEMBLE publishes `A..D`, clears BUSY, sets DONE and goes to IDLE; ERR and ERRCODE stay. -/
def Obligations.AssemblePublishesChain : Prop :=
  ∀ s : State,
    exec .assemble s = .next
      { s with
        digest := s.chain
        status := { busy := false, done := true, err := s.status.err, errcode := s.status.errcode }
        fsm := 0#3 }

/-- LOAD of a HASH: block `blk` of the message padded by the source's three steps (R420), the working registers from `A..D`,
`i = 1` (R440, R441). -/
def Obligations.LoadHashDecodesPaddedBlock : Prop :=
  ∀ (s : State) (m : List Byte), s.op = .hash → s.holdsMessage m → s.lenQ.toNat = m.length →
    s.blk < blockCount m.length →
    exec .load s = .next
      { s with x := blockWords (paddedMessage m) s.blk, work := s.chain, i := 1#7, fsm := 2#3 }

/-- LOAD of a COMPRESS: bytes 0..63 of the buffer, raw, whatever LEN holds (R440, R442). -/
def Obligations.LoadCompressDecodesRawBlock : Prop :=
  ∀ (s : State) (m : List Byte), s.op = .compress → s.holdsMessage m → m.length = 64 →
    exec .load s = .next { s with x := blockWords m 0, work := s.chain, i := 1#7, fsm := 2#3 }

/-- R205, the engine's side: LOAD faults when a byte it reads is unwritten: a byte of 0..63 for COMPRESS, a message byte of the
block for HASH. -/
def Obligations.LoadFaultsOnUnwrittenByte : Prop :=
  ∀ (s : State) (j : Nat), Memory.get s.mem j = none →
    (s.op = .compress → j < 64 → 64 ≤ s.msgBytes → exec .load s = .fault .unwrittenByte) ∧
    (s.op = .hash → 64 * s.blk ≤ j → j < 64 * s.blk + 64 → j < s.lenQ.toNat → s.lenQ.toNat ≤ s.msgBytes →
      exec .load s = .fault .unwrittenByte)

/-- Frame of LOAD, ROUND, FOLD and ASSEMBLE: what each leaves unchanged. -/
def Obligations.MicroStepsFrame : Prop :=
  ∀ (s t : State) (i : Instr), (i = .load ∨ i = .round ∨ i = .fold ∨ i = .assemble) → exec i s = .next t →
    sameSurroundings s t ∧ sameHostStorage s t ∧ t.op = s.op ∧ t.nblk = s.nblk ∧ t.lenQ = s.lenQ ∧
    t.status.err = s.status.err ∧ t.status.errcode = s.status.errcode ∧
    (i ≠ .fold → t.chain = s.chain ∧ t.blk = s.blk) ∧
    (i ≠ .assemble → t.digest = s.digest ∧ t.status = s.status) ∧
    (i ≠ .load → t.x = s.x) ∧
    (i = .fold ∨ i = .assemble → t.work = s.work ∧ t.i = s.i)

/-! ## The padding front-end -/

/-- `PadByte(j)` (R424) is byte `j` of the message padded by the source's three steps (R420), for every `j < P(L)`. -/
def Obligations.PadByteIsSourcePadding : Prop :=
  ∀ (s : State) (m : List Byte), s.holdsMessage m → s.lenQ.toNat = m.length →
    (paddedMessage m).length = paddedLength m.length ∧
    ∀ j : Nat, ∀ h : j < (paddedMessage m).length, padByte s j = .ok (paddedMessage m)[j]

/-- R423: the padded length is a multiple of 64 within `L + 9 .. L + 72`, and the last 8 bytes, read little-endian, are
`(L * 8) mod 2^64`. -/
def Obligations.PaddedMessageInvariants : Prop :=
  ∀ m : List Byte,
    (paddedMessage m).length % 64 = 0 ∧
    m.length + 9 ≤ (paddedMessage m).length ∧ (paddedMessage m).length ≤ m.length + 72 ∧
    ((paddedMessage m).drop ((paddedMessage m).length - 8)).foldr (fun b n => b.toNat + 256 * n) 0
      = m.length * 8 % 2 ^ 64

/-- The padding takes one block more than the message's whole blocks when `L mod 64 <= 55`, two more when it is above (R427). -/
def Obligations.ExtraBlockAboveFiftyFive : Prop :=
  ∀ L : Nat,
    (L % 64 ≤ 55 → blockCount L = L / 64 + 1) ∧ (55 < L % 64 → blockCount L = L / 64 + 2) ∧
    paddedLength 55 = 64 ∧ paddedLength 56 = 128

/-! ## The commands -/

/-- R544: NOP changes nothing, even while BUSY = 1. -/
def Obligations.NopChangesNothing : Prop := ∀ s : State, exec .nop s = .next s

/-- R545: INIT is accepted when BUSY = 0 and loads the IV; ASSEMBLE then publishes it; with BUSY = 1 it is rejected with code 2. -/
def Obligations.InitLoadsAndPublishesInitialValue : Prop :=
  ∀ s : State,
    (s.status.busy = true → exec .init s = .next { s with status := { s.status with err := true, errcode := .busy } }) ∧
    (s.status.busy = false →
      ∃ t u, exec .init s = .next t ∧
        t = { s with
          status := { busy := true, done := false, err := false, errcode := .none }
          op := .init
          chain := { a := 0x67452301#32, b := 0xEFCDAB89#32, c := 0x98BADCFE#32, d := 0x10325476#32 }
          fsm := 4#3 } ∧
        engineTurn t = .next u ∧
        u = { t with digest := t.chain, status := { busy := false, done := true, err := false, errcode := .none }, fsm := 0#3 })

/-- COMPRESS is accepted when BUSY = 0: one block, no IV load (R547, R541). -/
def Obligations.CompressAccepted : Prop :=
  ∀ s : State, s.status.busy = false →
    exec .compress s = .next
      { s with
        status := { busy := true, done := false, err := false, errcode := .none }
        op := .compress
        blk := 0
        nblk := 1
        fsm := 1#3 }

/-- HASH is accepted when BUSY = 0 and `{LEN_HI, LEN_LO} <= MSG_BYTES`: the length is latched, the IV loaded, the blocks counted
(R550, R541). -/
def Obligations.HashAccepted : Prop :=
  ∀ s : State, s.status.busy = false → s.lenHi.toNat * 2 ^ 32 + s.lenLo.toNat ≤ s.msgBytes →
    exec .hash s = .next
      { s with
        status := { busy := true, done := false, err := false, errcode := .none }
        op := .hash
        lenQ := BitVec.ofNat 64 (s.lenHi.toNat * 2 ^ 32 + s.lenLo.toNat)
        chain := { a := 0x67452301#32, b := 0xEFCDAB89#32, c := 0x98BADCFE#32, d := 0x10325476#32 }
        blk := 0
        nblk := (s.lenHi.toNat * 2 ^ 32 + s.lenLo.toNat + 8) / 64 + 1
        fsm := 1#3 }

/-- A write of CTRL with a reserved opcode sets ERR and ERRCODE = CMD and changes nothing else, whatever the state (R604, R603).
That exec of the two reserved instructions does so at every value of their operand, an ill-formed one included, is the model's
choice: notes/assumptions/21.md. -/
def Obligations.ReservedOpcodesRejected : Prop :=
  ∀ s : State,
    (∀ (addr : BitVec 16) (be : BitVec 4) (wdata : Word), addr.toNat / 4 = 0 → be.getLsbD 0 = true → 4 ≤ wdata.toNat % 16 →
      busWrite addr be wdata s = .next { s with status := { s.status with err := true, errcode := .cmd } }) ∧
    ∀ op : BitVec 4,
      exec (.reservedOp47 op) s = .next { s with status := { s.status with err := true, errcode := .cmd } } ∧
      exec (.reservedOp8F op) s = .next { s with status := { s.status with err := true, errcode := .cmd } }

/-- R602: the whole of issuing a CTRL word, in the order NOP, CMD, BUSY, LEN, acceptance. -/
def Obligations.IssueChecksInOrder : Prop :=
  ∀ (s : State) (w : Word),
    let OP := w.toNat % 16
    let rejected (code : ErrCode) : State := { s with status := { s.status with err := true, errcode := code } }
    (OP = 0 → exec (decodeCommand w) s = .next s) ∧
    (4 ≤ OP → exec (decodeCommand w) s = .next (rejected .cmd)) ∧
    (1 ≤ OP → OP ≤ 3 → s.status.busy = true → exec (decodeCommand w) s = .next (rejected .busy)) ∧
    (OP = 3 → s.status.busy = false → s.msgBytes < s.lenHi.toNat * 2 ^ 32 + s.lenLo.toNat →
      exec (decodeCommand w) s = .next (rejected .len)) ∧
    (1 ≤ OP → OP ≤ 3 → s.status.busy = false →
      (OP = 3 → s.lenHi.toNat * 2 ^ 32 + s.lenLo.toNat ≤ s.msgBytes) →
      ∃ t, exec (decodeCommand w) s = .next t ∧
        t.status = { busy := true, done := false, err := false, errcode := .none } ∧
        t.op = (if OP = 1 then .init else if OP = 2 then .compress else .hash))

/-- Frame of the six commands: what issuing one leaves unchanged, whether it is accepted or rejected. -/
def Obligations.CommandsFrame : Prop :=
  ∀ (s t : State) (w : Word), exec (decodeCommand w) s = .next t →
    sameSurroundings s t ∧ sameHostStorage s t ∧ t.work = s.work ∧ t.x = s.x ∧ t.i = s.i ∧ t.digest = s.digest ∧
    (w.toNat % 16 ≠ 1 → w.toNat % 16 ≠ 3 → t.chain = s.chain) ∧
    (w.toNat % 16 ≠ 3 → t.lenQ = s.lenQ) ∧
    (w.toNat % 16 ≠ 2 → w.toNat % 16 ≠ 3 → t.blk = s.blk ∧ t.nblk = s.nblk) ∧
    (s.status.busy = true →
      t.chain = s.chain ∧ t.lenQ = s.lenQ ∧ t.blk = s.blk ∧ t.nblk = s.nblk ∧ t.op = s.op ∧ t.fsm = s.fsm ∧
      t.status.busy = true ∧ t.status.done = s.status.done)

/-! ## The bus -/

/-- The bits of a STATUS read (R121): BUSY 0, DONE 1, ERR 2, ERRCODE 7:4, every other bit 0. -/
def Obligations.StatusWordLayout : Prop :=
  ∀ (st : Status), ∀ n < 32,
    (statusWord st).getLsbD n =
      if n = 0 then st.busy else if n = 1 then st.done else if n = 2 then st.err
      else if 4 ≤ n ∧ n < 8 then
        (match st.errcode with | .none => 0#4 | .cmd => 1#4 | .busy => 2#4 | .len => 3#4).getLsbD (n - 4)
      else false

/-- What a read returns at each address of the map (R211); `addr[1:0]` is ignored. -/
def Obligations.BusReadFollowsMap : Prop :=
  ∀ (s : State) (addr : BitVec 16),
    let a := addr.toNat / 4 * 4
    (a = 0x0000 → busReadWord s addr = 0#32) ∧
    (a = 0x0004 → busReadWord s addr = statusWord s.status) ∧
    (a = 0x0008 → busReadWord s addr = s.lenLo) ∧
    (a = 0x000C → busReadWord s addr = s.lenHi) ∧
    (a = 0x0010 → busReadWord s addr = s.digest.a) ∧
    (a = 0x0014 → busReadWord s addr = s.digest.b) ∧
    (a = 0x0018 → busReadWord s addr = s.digest.c) ∧
    (a = 0x001C → busReadWord s addr = s.digest.d) ∧
    (0x0020 ≤ a → a < 0x8000 → busReadWord s addr = 0#32) ∧
    (∀ w, a = 0x8000 + 4 * w → 4 * w < s.msgBytes → ∀ j < 4, ∀ b, Memory.get s.mem (4 * w + j) = some b →
      byteOf (busReadWord s addr) j = b) ∧
    (0x8000 + s.msgBytes ≤ a → busReadWord s addr = 0#32)

/-- A read is a step that returns the word and has no side effect on MDE (R209). -/
def Obligations.HostReadHasNoSideEffect : Prop :=
  ∀ (s : State) (addr : BitVec 16) (rest : List HostOp), s.rst = false → nextTurn s = .host →
    s.host = .read addr :: rest →
    ∃ d, step s = .next
      { s with sched := s.sched.tail, host := rest, reads := busReadWord s addr :: s.reads, draws := d }

/-- R207: with BUSY = 0 a write to the buffer stores each enabled lane at its offset, and every other byte stays; with BUSY = 1 it
is ignored entirely. -/
def Obligations.BufferWriteStoresEnabledLanes : Prop :=
  ∀ (s : State) (addr : BitVec 16) (be : BitVec 4) (wdata : Word) (w : Nat),
    addr.toNat / 4 * 4 = 0x8000 + 4 * w → 4 * w < s.msgBytes →
    (s.status.busy = true → busWrite addr be wdata s = .next s) ∧
    (s.status.busy = false →
      ∃ m, busWrite addr be wdata s = .next { s with mem := m } ∧
        (∀ j < 4, Memory.get m (4 * w + j) =
          if be.getLsbD j then some (byteOf wdata j) else Memory.get s.mem (4 * w + j)) ∧
        ∀ off, (off < 4 * w ∨ 4 * w + 4 ≤ off) → Memory.get m off = Memory.get s.mem off)

/-- A write to LEN_LO or LEN_HI updates the bytes whose byte enables are set when BUSY = 0, and is ignored when BUSY = 1 (R123). -/
def Obligations.LenWriteUpdatesEnabledBytes : Prop :=
  ∀ (s : State) (addr : BitVec 16) (be : BitVec 4) (wdata : Word),
    (addr.toNat / 4 * 4 = 0x0008 ∨ addr.toNat / 4 * 4 = 0x000C) →
    (s.status.busy = true → busWrite addr be wdata s = .next s) ∧
    (s.status.busy = false →
      ∃ v : Word,
        busWrite addr be wdata s = .next
          (if addr.toNat / 4 * 4 = 0x0008 then { s with lenLo := v } else { s with lenHi := v }) ∧
        ∀ j < 4, byteOf v j =
          if be.getLsbD j then byteOf wdata j
          else byteOf (if addr.toNat / 4 * 4 = 0x0008 then s.lenLo else s.lenHi) j)

/-- Writes to STATUS, DIGEST, the reserved offsets and the unmapped addresses are ignored (R211, R125). -/
def Obligations.ReadOnlyAddressesIgnoreWrites : Prop :=
  ∀ (s : State) (addr : BitVec 16) (be : BitVec 4) (wdata : Word),
    let a := addr.toNat / 4 * 4
    (a = 0x0004 ∨ (0x0010 ≤ a ∧ a < 0x8000) ∨ 0x8000 + s.msgBytes ≤ a) →
    busWrite addr be wdata s = .next s

/-- A write of CTRL issues the command of its data when byte enable 0 is set, and has no effect when it is clear (R120, R540). -/
def Obligations.CtrlWriteIssuesCommand : Prop :=
  ∀ (s : State) (addr : BitVec 16) (be : BitVec 4) (wdata : Word), addr.toNat / 4 = 0 →
    (be.getLsbD 0 = true → busWrite addr be wdata s = exec (decodeCommand wdata) s) ∧
    (be.getLsbD 0 = false → busWrite addr be wdata s = .next s)

/-- Transactions that differ only in `addr[1:0]` are the same transaction (R208). -/
def Obligations.LowAddressBitsIgnored : Prop :=
  ∀ (s : State) (addr addr' : BitVec 16) (be : BitVec 4) (wdata : Word), addr.toNat / 4 = addr'.toNat / 4 →
    busRead addr s = busRead addr' s ∧ busWrite addr be wdata s = busWrite addr' be wdata s

/-- A word written to the buffer reads back as written, whichever way its low address bits are spelled (R204). -/
def Obligations.BufferWordReadsBack : Prop :=
  ∀ (s : State) (addr addr' : BitVec 16) (wdata : Word) (w : Nat), s.status.busy = false →
    addr.toNat / 4 * 4 = 0x8000 + 4 * w → 4 * w < s.msgBytes → addr'.toNat / 4 = addr.toNat / 4 →
    ∃ t, busWrite addr 0xF#4 wdata s = .next t ∧ busReadWord t addr' = wdata

/-! ## A step runs the decoded instruction -/

/-- The host's turn with a write of CTRL, byte enable 0 set: the step runs the command the data decodes to, in the state whose
turn and transaction are taken off their lists. -/
def Obligations.StepRunsHostCommand : Prop :=
  ∀ (s : State) (addr : BitVec 16) (be : BitVec 4) (wdata : Word) (rest : List HostOp), s.rst = false →
    nextTurn s = .host → s.host = .write addr be wdata :: rest → addr.toNat / 4 = 0 → be.getLsbD 0 = true →
    step s = exec (decodeCommand wdata) { s with sched := s.sched.tail, host := rest }

/-- The engine's turn: the step runs the micro-step `fsm` decodes to; in IDLE the engine has no step (R560). -/
def Obligations.StepRunsSequencerMicroStep : Prop :=
  ∀ s : State, s.rst = false → nextTurn s = .engine →
    (∀ i, decodeTableWord 8 s.fsm.toNat = some i → step s = exec i { s with sched := s.sched.tail }) ∧
    (s.fsm = 0#3 → step s = .next { s with sched := s.sched.tail }) ∧
    (5 ≤ s.fsm.toNat → step s = .fault .unreachableFsm)

/-- A turn of the datapath alone (notes/assumptions/9.md): the step fetches R314's entry of the step index and is exec of the
instruction it decodes to, in the state whose turn is taken off its list. -/
def Obligations.StepRunsDatapathTurn : Prop :=
  ∀ (s : State) (u : BitVec 16) (i : Instr), s.rst = false → nextTurn s = .datapath → romEntry s.srom s.i = some u →
    romEntry stepRom s.i = some u → decodeTableWord 16 u.toNat = some i →
    step s = exec i { s with sched := s.sched.tail }

/-- A placed table word is what the next step runs, in the state it was placed in without the turn and the transaction that
carried it (notes/assumptions/10.md); a STEPW that is none of R314's 64 entries makes that step fault (R315). -/
def Obligations.StepRunsPlacedWord : Prop :=
  ∀ (s : State) (nbits w : Nat) (i : Instr), decodeTableWord nbits w = some i →
    (i.format ≠ .stepw ∨ BitVec.ofNat 16 w ∈ stepTable →
      step (s.withFetchWord nbits w) = exec i { s.withFetchWord nbits w with sched := s.sched, host := s.host }) ∧
    (i.format = .stepw → BitVec.ofNat 16 w ∉ stepTable → step (s.withFetchWord nbits w) = .fault .stepRomEntry)

/-! ## The whole machine -/

/-- The invariant holds at reset. -/
def Obligations.ResetMeetsInvariant : Prop := State.reset.Inv

/-- Every step keeps the invariant. -/
def Obligations.StepKeepsInvariant : Prop := ∀ s t : State, s.Inv → step s = .next t → t.Inv

/-- Every instruction has a meaning: no step is refused, whatever the state. -/
def Obligations.NoStepIsRefused : Prop := ∀ (s : State) (r : Refusal), step s ≠ .refused r

/-- The one fault a run of the two agents can meet is a LOAD reading an unwritten byte (R607). -/
def Obligations.OnlyUnwrittenBytesFault : Prop :=
  ∀ (s : State) (f : Fault), s.Inv → nextTurn s ≠ .datapath → step s = .fault f →
    f = .unwrittenByte ∧ s.fsm = 1#3

/-- R561: the sequencer moves along the edges of the transition graph only. -/
def Obligations.SequencerFollowsTransitionGraph : Prop :=
  ∀ s t : State, s.Inv → step s = .next t →
    (s.rst = false → nextTurn s = .engine →
      (s.fsm = 0#3 → t.fsm = 0#3) ∧
      (s.fsm = 1#3 → t.fsm = 2#3 ∧ t.i = 1#7) ∧
      (s.fsm = 2#3 → s.i.toNat < 64 → t.fsm = 2#3 ∧ t.i.toNat = s.i.toNat + 1) ∧
      (s.fsm = 2#3 → s.i.toNat = 64 → t.fsm = 3#3 ∧ t.i = s.i) ∧
      (s.fsm = 3#3 → s.blk + 1 < s.nblk → t.fsm = 1#3 ∧ t.blk = s.blk + 1) ∧
      (s.fsm = 3#3 → s.blk + 1 = s.nblk → t.fsm = 4#3) ∧
      (s.fsm = 4#3 → t.fsm = 0#3)) ∧
    (s.rst = false → nextTurn s = .host →
      t.fsm = s.fsm ∨
      (s.fsm = 0#3 ∧ t.op = .init ∧ t.fsm = 4#3) ∨
      (s.fsm = 0#3 ∧ (t.op = .compress ∨ t.op = .hash) ∧ t.fsm = 1#3)) ∧
    (nextTurn s = .rst true ∨ (s.rst = true ∧ nextTurn s ≠ .rst false) → t.fsm = 0#3)

/-- The chaining registers are written by FOLD, by the IV load of an accepted INIT or HASH, and by reset, and by nothing else
(R103). -/
def Obligations.ChainWrittenInThreePlaces : Prop :=
  ∀ s t : State, step s = .next t → t.chain ≠ s.chain →
    (nextTurn s = .engine ∧ s.fsm = 3#3 ∧ t.chain = addQuad s.chain s.work) ∨
    (nextTurn s = .host ∧ s.status.busy = false ∧ t.status.busy = true ∧ (t.op = .init ∨ t.op = .hash) ∧
      t.chain = initialValue) ∨
    ((s.rst = true ∨ nextTurn s = .rst true) ∧ t.chain = initialValue)

/-- R122: STATUS is written by an accepted command, by a rejected one, by ASSEMBLE and by reset, and by nothing else. -/
def Obligations.StatusWrittenInThreePlaces : Prop :=
  ∀ s t : State, step s = .next t → t.status ≠ s.status →
    (nextTurn s = .host ∧ s.status.busy = false ∧
      t.status = { busy := true, done := false, err := false, errcode := .none }) ∨
    (nextTurn s = .host ∧ ∃ code, code ≠ .none ∧ t.status = { s.status with err := true, errcode := code }) ∨
    (nextTurn s = .engine ∧ s.fsm = 4#3 ∧ t.status = { s.status with busy := false, done := true }) ∨
    ((s.rst = true ∨ nextTurn s = .rst true) ∧
      t.status = { busy := false, done := false, err := false, errcode := .none })

/-- R525: DIGEST changes only at ASSEMBLE, to the chaining registers, and at reset, to 0. -/
def Obligations.DigestChangesOnlyAtAssemble : Prop :=
  ∀ s t : State, step s = .next t → t.digest ≠ s.digest →
    (nextTurn s = .engine ∧ s.fsm = 4#3 ∧ t.digest = s.chain) ∨
    ((s.rst = true ∨ nextTurn s = .rst true) ∧ t.digest = { a := 0#32, b := 0#32, c := 0#32, d := 0#32 })

/-- The buffer and LEN change only by a host write with BUSY = 0, and at reset: the message a command reads stays what it was at
acceptance (R206, R207, R214). -/
def Obligations.MessageFixedWhileBusy : Prop :=
  ∀ s t : State, step s = .next t → (t.mem ≠ s.mem ∨ t.lenLo ≠ s.lenLo ∨ t.lenHi ≠ s.lenHi) →
    (nextTurn s = .host ∧ s.status.busy = false) ∨ s.rst = true ∨ nextTurn s = .rst true

/-- A host transaction while BUSY = 1 leaves everything the running command depends on or writes as it was (R214, R605). -/
def Obligations.HostTurnWhileBusyLeavesDatapath : Prop :=
  ∀ s : State, s.rst = false → s.status.busy = true → nextTurn s = .host →
    ∃ t, step s = .next t ∧ sameDatapath s t ∧ t.lenLo = s.lenLo ∧ t.lenHi = s.lenHi ∧ t.rst = false ∧
      t.sched = s.sched.tail

/-- The engine's step depends on and gives the same datapath in two states that differ only in ERR, ERRCODE, LEN and the
environment (R214, R716). -/
def Obligations.EngineStepIgnoresHostState : Prop :=
  ∀ s s' t : State, sameDatapath s s' → engineTurn s = .next t → ∃ t', engineTurn s' = .next t' ∧ sameDatapath t t'

/-- A COMPRESS left alone: 67 micro-steps after acceptance the chaining registers hold the compression function of the raw
block, and DIGEST holds them (R547, R567). Left alone is one schedule, `sched` and `host` empty: notes/assumptions/7.md. -/
def Obligations.CompressRunComputesCompressionFunction : Prop :=
  ∀ (s : State) (m : List Byte), s.Inv → s.undisturbed → s.fsm = 1#3 → s.op = .compress → s.blk = 0 →
    s.holdsMessage m → m.length = 64 →
    ∃ t, Host.Core.run Sys2Proof.core 67 s = .next t ∧ t.chain = compressBlock s.chain (blockWords m 0) ∧
      t.digest = t.chain ∧ t.fsm = 0#3 ∧ t.status.busy = false ∧ t.status.done = true ∧
      t.status.err = s.status.err ∧ t.status.errcode = s.status.errcode

/-- R551 under every interleaving: from an accepted HASH of the message `m`, whatever the host does between the engine's
micro-steps, the `66*nblk + 1`st of them publishes `Digest(m)` and ends the command (R214, R552, R567). -/
def Obligations.HashPublishesDigestInEveryInterleaving : Prop :=
  ∀ (s : State) (m : List Byte) (turns rest : List Turn), s.Inv → s.rst = false → s.fsm = 1#3 → s.op = .hash →
    s.blk = 0 → s.chain = initialValue → s.lenQ.toNat = m.length → s.holdsMessage m →
    s.sched = turns ++ .engine :: rest → (∀ u ∈ turns, u.isAgent = true) →
    turns.count .engine = 66 * blockCount m.length →
    ∃ t, Host.Core.run Sys2Proof.core (turns.length + 1) s = .next t ∧ t.digest = digestOf m ∧ t.chain = t.digest ∧
      t.fsm = 0#3 ∧ t.status.busy = false ∧ t.status.done = true

/-- The source's call as a host program (R568): from IDLE with the message in the buffer and its length in LEN, HASH, POLL,
GETDIGEST read STATUS with DONE alone and then the four words of `Digest(m)`. The schedule is the one of an empty `sched`:
notes/assumptions/7.md. -/
def Obligations.HashProgramReadsDigest : Prop :=
  ∀ (s : State) (m : List Byte), s.Inv → s.rst = false → s.sched = [] → s.fsm = 0#3 → s.holdsMessage m →
    s.lenHi.toNat * 2 ^ 32 + s.lenLo.toNat = m.length →
    s.host = [.write 0x0000#16 0xF#4 0x00000003#32, .poll, .read 0x0010#16, .read 0x0014#16, .read 0x0018#16, .read 0x001C#16] →
    ∃ t, Host.Core.run Sys2Proof.core (1 + (66 * blockCount m.length + 1) + 5) s = .next t ∧ t.host = [] ∧
      t.reads = (digestOf m).d :: (digestOf m).c :: (digestOf m).b :: (digestOf m).a :: 0x00000002#32 :: s.reads

/-! ## The digest -/

/-- R522: digest byte `4n + j` is byte `j`, least significant first, of DIGEST`n`. -/
def Obligations.DigestBytesInRegisterOrder : Prop :=
  ∀ q : Quad, (digestBytes q).length = 16 ∧
    ∀ j < 4,
      (digestBytes q)[j]? = some (q.a.extractLsb' (8 * j) 8) ∧ (digestBytes q)[4 + j]? = some (q.b.extractLsb' (8 * j) 8) ∧
      (digestBytes q)[8 + j]? = some (q.c.extractLsb' (8 * j) 8) ∧ (digestBytes q)[12 + j]? = some (q.d.extractLsb' (8 * j) 8)
end

