-- ==== Sys2Proof/Laws/Bits.lean ====
section
/-! SUPPORT. Byte order: a word's bytes, a word from its bytes, byte lanes, and aligned word addresses. -/

namespace Sys2Proof.Machine

theorem byteOf_getLsbD {n : Nat} (w : BitVec n) (j k : Nat) :
    (byteOf w j).getLsbD k = (decide (k < 8) && w.getLsbD (8 * j + k)) := by
  simp [byteOf, BitVec.getLsbD_extractLsb']

/-- A bit of a composed word is a bit of the byte of its lane. -/
theorem le32_getLsbD (b0 b1 b2 b3 : Byte) (n : Nat) :
    (le32 b0 b1 b2 b3).getLsbD n =
      if n < 8 then b0.getLsbD n else if n < 16 then b1.getLsbD (n - 8)
      else if n < 24 then b2.getLsbD (n - 16) else b3.getLsbD (n - 24) := by
  simp only [le32, BitVec.getLsbD_or, BitVec.getLsbD_setWidth, BitVec.getLsbD_shiftLeft]
  have h0 : ∀ (b : Byte) (k : Nat), 8 ≤ k → b.getLsbD k = false := fun b k h => BitVec.getLsbD_of_ge b k h
  by_cases h1 : n < 8
  · simp [h1, show n < 16 by omega, show n < 24 by omega, show n < 32 by omega]
  by_cases h2 : n < 16
  · simp [h1, h2, show n < 24 by omega, show n < 32 by omega, h0 b0 n (by omega), show n - 8 < 32 by omega]
  by_cases h3 : n < 24
  · simp [h1, h2, h3, show n < 32 by omega, h0 b0 n (by omega), h0 b1 (n - 8) (by omega), show n - 16 < 32 by omega]
  · by_cases h4 : n < 32
    · simp [h1, h2, h3, h4, h0 b0 n (by omega), h0 b1 (n - 8) (by omega), h0 b2 (n - 16) (by omega),
        show n - 24 < 32 by omega]
    · simp [h1, h2, h3, h4, h0 b3 (n - 24) (by omega)]

/-- Byte `j` of `LE32(b0, b1, b2, b3)` is `b_j`. -/
theorem byteOf_le32 (b0 b1 b2 b3 : Byte) :
    byteOf (le32 b0 b1 b2 b3) 0 = b0 ∧ byteOf (le32 b0 b1 b2 b3) 1 = b1
      ∧ byteOf (le32 b0 b1 b2 b3) 2 = b2 ∧ byteOf (le32 b0 b1 b2 b3) 3 = b3 := by
  refine ⟨?_, ?_, ?_, ?_⟩ <;> refine BitVec.eq_of_getLsbD_eq fun k hk => ?_ <;> rw [byteOf_getLsbD, le32_getLsbD]
  · simp [hk]
  · simp [hk, show 8 + k < 16 by omega]
  · simp [hk, show ¬ 16 + k < 8 by omega, show ¬ 16 + k < 16 by omega, show 16 + k < 24 by omega]
  · simp [hk, show ¬ 24 + k < 8 by omega, show ¬ 24 + k < 16 by omega]

/-- A word is composed of its four bytes. -/
@[simp] theorem le32_byteOf (w : Word) : le32 (byteOf w 0) (byteOf w 1) (byteOf w 2) (byteOf w 3) = w := by
  refine BitVec.eq_of_getLsbD_eq fun n hn => ?_
  simp only [le32_getLsbD, byteOf_getLsbD]
  by_cases h1 : n < 8
  · simp [h1]
  by_cases h2 : n < 16
  · simp [h1, h2, show n - 8 < 8 by omega, show 8 + (n - 8) = n by omega]
  by_cases h3 : n < 24
  · simp [h1, h2, h3, show n - 16 < 8 by omega, show 16 + (n - 16) = n by omega]
  · simp [h1, h2, h3, show n - 24 < 8 by omega, show 24 + (n - 24) = n by omega]

/-- Byte `j` of a lane merge: the new byte where the lane is enabled, the old one where it is not. -/
theorem byteOf_mergeLanes (be : BitVec 4) (old new : Word) {j : Nat} (hj : j < 4) :
    byteOf (mergeLanes be old new) j = if be.getLsbD j then byteOf new j else byteOf old j := by
  obtain rfl | rfl | rfl | rfl : j = 0 ∨ j = 1 ∨ j = 2 ∨ j = 3 := by omega
  · exact (byteOf_le32 _ _ _ _).1
  · exact (byteOf_le32 _ _ _ _).2.1
  · exact (byteOf_le32 _ _ _ _).2.2.1
  · exact (byteOf_le32 _ _ _ _).2.2.2

/-- `addr & 0xFFFC` is the address rounded down to a multiple of 4. -/
theorem wordAddress_eq (addr : BitVec 16) : wordAddress addr = addr.toNat / 4 * 4 := by
  have key : addr &&& 0xFFFC#16 = (addr >>> 2) <<< 2 := by
    refine BitVec.eq_of_getLsbD_eq fun n hn => ?_
    simp only [BitVec.getLsbD_and, BitVec.getLsbD_shiftLeft, BitVec.getLsbD_ushiftRight]
    have : ∀ k : Fin 16, (0xFFFC#16).getLsbD k.val = decide (2 ≤ k.val) := by decide
    rw [this ⟨n, hn⟩]
    by_cases h : 2 ≤ n
    · simp [h, hn, show ¬ n < 2 by omega, show 2 + (n - 2) = n by omega]
    · simp [h, show n < 2 by omega]
  have hlt := addr.isLt
  unfold wordAddress
  rw [key, BitVec.toNat_shiftLeft, BitVec.toNat_ushiftRight, Nat.shiftLeft_eq, Nat.shiftRight_eq_div_pow]
  omega

end Sys2Proof.Machine
end

