-- ==== Sys2Proof/Laws/Memory.lean ====
section
/-! SUPPORT. The laws of the message buffer: read after write, frame, and that every operation keeps the canonical form. -/

namespace Sys2Proof.Machine

@[simp] theorem memory_get_nil (off : Nat) : Memory.get [] off = none := rfl

/-- A read of the byte just written gives the value written. -/
@[simp] theorem memory_get_set_same (m : Memory) (off : Nat) (v : Byte) :
    Memory.get (Memory.set m off v) off = some v := by
  induction m with
  | nil => simp [Memory.set, Memory.get]
  | cons c rest ih =>
    obtain ⟨a, w⟩ := c
    simp only [Memory.set]
    split
    · simp [Memory.get]
    · split
      · simp [Memory.get]
      · rename_i h
        simp [Memory.get, Ne.symm h, ih]

/-- A write leaves every other byte as it was. -/
theorem memory_get_set_other (m : Memory) {off off' : Nat} (v : Byte) (h : off' ≠ off) :
    Memory.get (Memory.set m off v) off' = Memory.get m off' := by
  induction m with
  | nil => simp [Memory.set, Memory.get, Ne.symm h]
  | cons c rest ih =>
    obtain ⟨a, w⟩ := c
    simp only [Memory.set]
    split
    · simp [Memory.get, Ne.symm h]
    · split
      · rename_i _ h2
        simp [Memory.get, ← h2, Ne.symm h]
      · simp only [Memory.get, ih]

/-- What a write puts in the list: the old entries and the new one. -/
theorem memory_mem_set {m : Memory} {off : Nat} {v : Byte} {c : Host.Cell} (h : c ∈ Memory.set m off v) :
    c = (off, v) ∨ c ∈ m := by
  induction m with
  | nil => simpa [Memory.set] using h
  | cons d rest ih =>
    obtain ⟨a, w⟩ := d
    simp only [Memory.set] at h
    split at h
    · simpa using h
    · split at h
      · simp only [List.mem_cons] at h ⊢
        tauto
      · simp only [List.mem_cons] at h ⊢
        rcases h with h | h
        · exact .inr (.inl h)
        · exact (ih h).imp_right .inr

/-- A write keeps the canonical form. -/
theorem memory_wf_set {m : Memory} (hm : Memory.wf m) (off : Nat) (v : Byte) : Memory.wf (Memory.set m off v) := by
  induction m with
  | nil => simp [Memory.set, Memory.wf]
  | cons c rest ih =>
    obtain ⟨a, w⟩ := c
    obtain ⟨hhead, htail⟩ := List.pairwise_cons.mp hm
    simp only [Memory.set]
    split
    · rename_i hlt
      refine List.pairwise_cons.mpr ⟨fun d hd => ?_, hm⟩
      rcases List.mem_cons.mp hd with rfl | hd
      · exact hlt
      · exact lt_trans hlt (hhead d hd)
    · split
      · rename_i heq
        exact List.pairwise_cons.mpr ⟨fun d hd => heq ▸ hhead d hd, htail⟩
      · rename_i hge hne
        refine List.pairwise_cons.mpr ⟨fun d hd => ?_, ih htail⟩
        rcases memory_mem_set hd with rfl | hd
        · exact lt_of_le_of_ne (Nat.le_of_not_lt hge) (Ne.symm hne)
        · exact hhead d hd

/-- An entry of the list is what a read gives, when the list is in canonical form. -/
theorem memory_get_of_mem {m : Memory} (hm : Memory.wf m) {off : Nat} {v : Byte} (h : (off, v) ∈ m) :
    Memory.get m off = some v := by
  induction m with
  | nil => simp at h
  | cons c rest ih =>
    obtain ⟨a, w⟩ := c
    obtain ⟨hhead, htail⟩ := List.pairwise_cons.mp hm
    rcases List.mem_cons.mp h with h | h
    · cases h; simp [Memory.get]
    · have : a < off := hhead _ h
      simp [Memory.get, Nat.ne_of_lt this, ih htail h]

/-- A read that gives a value names an entry of the list. -/
theorem memory_mem_of_get {m : Memory} {off : Nat} {v : Byte} (h : Memory.get m off = some v) : (off, v) ∈ m := by
  induction m with
  | nil => simp at h
  | cons c rest ih =>
    obtain ⟨a, w⟩ := c
    simp only [Memory.get] at h
    split at h
    · simp_all
    · exact List.mem_cons_of_mem _ (ih h)

/-! ## One lane and a whole bus write -/

theorem memory_wf_writeLane {m : Memory} (hm : Memory.wf m) (be : BitVec 4) (wdata : Word) (off j : Nat) :
    Memory.wf (writeLane be wdata off j m) := by
  unfold writeLane
  split
  · exact memory_wf_set hm _ _
  · exact hm

/-- A bus write keeps the canonical form. -/
theorem memory_wf_writeLanes {m : Memory} (hm : Memory.wf m) (be : BitVec 4) (wdata : Word) (off : Nat) :
    Memory.wf (writeLanes be wdata off m) :=
  memory_wf_writeLane (memory_wf_writeLane (memory_wf_writeLane (memory_wf_writeLane hm _ _ _ _) _ _ _ _) _ _ _ _) _ _ _ _

theorem memory_mem_writeLane {be : BitVec 4} {wdata : Word} {off j : Nat} {m : Memory} {c : Host.Cell}
    (h : c ∈ writeLane be wdata off j m) : c.1 = off + j ∨ c ∈ m := by
  unfold writeLane at h
  split at h
  · exact (memory_mem_set h).imp_left fun h => by rw [h]
  · exact .inr h

/-- A bus write lists at most the four offsets of its word anew. -/
theorem memory_mem_writeLanes {be : BitVec 4} {wdata : Word} {off : Nat} {m : Memory} {c : Host.Cell}
    (h : c ∈ writeLanes be wdata off m) : (off ≤ c.1 ∧ c.1 < off + 4) ∨ c ∈ m := by
  rcases memory_mem_writeLane h with h | h
  · exact .inl (by omega)
  rcases memory_mem_writeLane h with h | h
  · exact .inl (by omega)
  rcases memory_mem_writeLane h with h | h
  · exact .inl (by omega)
  rcases memory_mem_writeLane h with h | h
  · exact .inl (by omega)
  · exact .inr h

theorem memory_get_writeLane_same (be : BitVec 4) (wdata : Word) (off j : Nat) (m : Memory) :
    Memory.get (writeLane be wdata off j m) (off + j)
      = if be.getLsbD j then some (byteOf wdata j) else Memory.get m (off + j) := by
  unfold writeLane
  split <;> simp

theorem memory_get_writeLane_other {be : BitVec 4} {wdata : Word} {off j : Nat} {m : Memory} {a : Nat}
    (h : a ≠ off + j) : Memory.get (writeLane be wdata off j m) a = Memory.get m a := by
  unfold writeLane
  split
  · exact memory_get_set_other _ _ h
  · rfl

/-- Lane `j` of a bus write: the written byte where the lane is enabled, the old one where it is not. -/
theorem memory_get_writeLanes_lane (be : BitVec 4) (wdata : Word) (off : Nat) (m : Memory) {j : Nat} (hj : j < 4) :
    Memory.get (writeLanes be wdata off m) (off + j)
      = if be.getLsbD j then some (byteOf wdata j) else Memory.get m (off + j) := by
  unfold writeLanes
  obtain rfl | rfl | rfl | rfl : j = 0 ∨ j = 1 ∨ j = 2 ∨ j = 3 := by omega
  · rw [memory_get_writeLane_other (by omega), memory_get_writeLane_other (by omega),
      memory_get_writeLane_other (by omega), memory_get_writeLane_same]
  · rw [memory_get_writeLane_other (by omega), memory_get_writeLane_other (by omega), memory_get_writeLane_same,
      memory_get_writeLane_other (by omega)]
  · rw [memory_get_writeLane_other (by omega), memory_get_writeLane_same, memory_get_writeLane_other (by omega),
      memory_get_writeLane_other (by omega)]
  · rw [memory_get_writeLane_same, memory_get_writeLane_other (by omega), memory_get_writeLane_other (by omega),
      memory_get_writeLane_other (by omega)]

/-- A bus write leaves every byte outside its word as it was. -/
theorem memory_get_writeLanes_other (be : BitVec 4) (wdata : Word) {off a : Nat} (m : Memory)
    (h : a < off ∨ off + 4 ≤ a) : Memory.get (writeLanes be wdata off m) a = Memory.get m a := by
  unfold writeLanes
  rw [memory_get_writeLane_other (by omega), memory_get_writeLane_other (by omega),
    memory_get_writeLane_other (by omega), memory_get_writeLane_other (by omega)]

end Sys2Proof.Machine
end

