-- ==== Sys2Proof/Laws/State.lean ====
section
/-! SUPPORT. One lemma per field per named update of State, each true by rfl: no later proof unfolds an update. -/

namespace Sys2Proof.Machine

/-! ## accept -/

@[simp] theorem accept_chain (c : Cmd) (s : State) : (accept c s).chain = s.chain := rfl
@[simp] theorem accept_work (c : Cmd) (s : State) : (accept c s).work = s.work := rfl
@[simp] theorem accept_x (c : Cmd) (s : State) : (accept c s).x = s.x := rfl
@[simp] theorem accept_romT (c : Cmd) (s : State) : (accept c s).romT = s.romT := rfl
@[simp] theorem accept_srom (c : Cmd) (s : State) : (accept c s).srom = s.srom := rfl
@[simp] theorem accept_fsm (c : Cmd) (s : State) : (accept c s).fsm = s.fsm := rfl
@[simp] theorem accept_op (c : Cmd) (s : State) : (accept c s).op = c := rfl
@[simp] theorem accept_i (c : Cmd) (s : State) : (accept c s).i = s.i := rfl
@[simp] theorem accept_blk (c : Cmd) (s : State) : (accept c s).blk = s.blk := rfl
@[simp] theorem accept_nblk (c : Cmd) (s : State) : (accept c s).nblk = s.nblk := rfl
@[simp] theorem accept_lenQ (c : Cmd) (s : State) : (accept c s).lenQ = s.lenQ := rfl
@[simp] theorem accept_status (c : Cmd) (s : State) : (accept c s).status = statusAccepted := rfl
@[simp] theorem accept_lenLo (c : Cmd) (s : State) : (accept c s).lenLo = s.lenLo := rfl
@[simp] theorem accept_lenHi (c : Cmd) (s : State) : (accept c s).lenHi = s.lenHi := rfl
@[simp] theorem accept_digest (c : Cmd) (s : State) : (accept c s).digest = s.digest := rfl
@[simp] theorem accept_mem (c : Cmd) (s : State) : (accept c s).mem = s.mem := rfl
@[simp] theorem accept_msgBytes (c : Cmd) (s : State) : (accept c s).msgBytes = s.msgBytes := rfl
@[simp] theorem accept_rst (c : Cmd) (s : State) : (accept c s).rst = s.rst := rfl
@[simp] theorem accept_host (c : Cmd) (s : State) : (accept c s).host = s.host := rfl
@[simp] theorem accept_sched (c : Cmd) (s : State) : (accept c s).sched = s.sched := rfl
@[simp] theorem accept_reads (c : Cmd) (s : State) : (accept c s).reads = s.reads := rfl
@[simp] theorem accept_draws (c : Cmd) (s : State) : (accept c s).draws = s.draws := rfl

/-! ## reject -/

@[simp] theorem reject_chain (code : ErrCode) (s : State) : (reject code s).chain = s.chain := rfl
@[simp] theorem reject_work (code : ErrCode) (s : State) : (reject code s).work = s.work := rfl
@[simp] theorem reject_x (code : ErrCode) (s : State) : (reject code s).x = s.x := rfl
@[simp] theorem reject_romT (code : ErrCode) (s : State) : (reject code s).romT = s.romT := rfl
@[simp] theorem reject_srom (code : ErrCode) (s : State) : (reject code s).srom = s.srom := rfl
@[simp] theorem reject_fsm (code : ErrCode) (s : State) : (reject code s).fsm = s.fsm := rfl
@[simp] theorem reject_op (code : ErrCode) (s : State) : (reject code s).op = s.op := rfl
@[simp] theorem reject_i (code : ErrCode) (s : State) : (reject code s).i = s.i := rfl
@[simp] theorem reject_blk (code : ErrCode) (s : State) : (reject code s).blk = s.blk := rfl
@[simp] theorem reject_nblk (code : ErrCode) (s : State) : (reject code s).nblk = s.nblk := rfl
@[simp] theorem reject_lenQ (code : ErrCode) (s : State) : (reject code s).lenQ = s.lenQ := rfl
@[simp] theorem reject_status (code : ErrCode) (s : State) : (reject code s).status = statusRejected code s.status := rfl
@[simp] theorem reject_lenLo (code : ErrCode) (s : State) : (reject code s).lenLo = s.lenLo := rfl
@[simp] theorem reject_lenHi (code : ErrCode) (s : State) : (reject code s).lenHi = s.lenHi := rfl
@[simp] theorem reject_digest (code : ErrCode) (s : State) : (reject code s).digest = s.digest := rfl
@[simp] theorem reject_mem (code : ErrCode) (s : State) : (reject code s).mem = s.mem := rfl
@[simp] theorem reject_msgBytes (code : ErrCode) (s : State) : (reject code s).msgBytes = s.msgBytes := rfl
@[simp] theorem reject_rst (code : ErrCode) (s : State) : (reject code s).rst = s.rst := rfl
@[simp] theorem reject_host (code : ErrCode) (s : State) : (reject code s).host = s.host := rfl
@[simp] theorem reject_sched (code : ErrCode) (s : State) : (reject code s).sched = s.sched := rfl
@[simp] theorem reject_reads (code : ErrCode) (s : State) : (reject code s).reads = s.reads := rfl
@[simp] theorem reject_draws (code : ErrCode) (s : State) : (reject code s).draws = s.draws := rfl

/-! ## popTurn -/

@[simp] theorem popTurn_chain (s : State) : (popTurn s).chain = s.chain := rfl
@[simp] theorem popTurn_work (s : State) : (popTurn s).work = s.work := rfl
@[simp] theorem popTurn_x (s : State) : (popTurn s).x = s.x := rfl
@[simp] theorem popTurn_romT (s : State) : (popTurn s).romT = s.romT := rfl
@[simp] theorem popTurn_srom (s : State) : (popTurn s).srom = s.srom := rfl
@[simp] theorem popTurn_fsm (s : State) : (popTurn s).fsm = s.fsm := rfl
@[simp] theorem popTurn_op (s : State) : (popTurn s).op = s.op := rfl
@[simp] theorem popTurn_i (s : State) : (popTurn s).i = s.i := rfl
@[simp] theorem popTurn_blk (s : State) : (popTurn s).blk = s.blk := rfl
@[simp] theorem popTurn_nblk (s : State) : (popTurn s).nblk = s.nblk := rfl
@[simp] theorem popTurn_lenQ (s : State) : (popTurn s).lenQ = s.lenQ := rfl
@[simp] theorem popTurn_status (s : State) : (popTurn s).status = s.status := rfl
@[simp] theorem popTurn_lenLo (s : State) : (popTurn s).lenLo = s.lenLo := rfl
@[simp] theorem popTurn_lenHi (s : State) : (popTurn s).lenHi = s.lenHi := rfl
@[simp] theorem popTurn_digest (s : State) : (popTurn s).digest = s.digest := rfl
@[simp] theorem popTurn_mem (s : State) : (popTurn s).mem = s.mem := rfl
@[simp] theorem popTurn_msgBytes (s : State) : (popTurn s).msgBytes = s.msgBytes := rfl
@[simp] theorem popTurn_rst (s : State) : (popTurn s).rst = s.rst := rfl
@[simp] theorem popTurn_host (s : State) : (popTurn s).host = s.host := rfl
@[simp] theorem popTurn_sched (s : State) : (popTurn s).sched = s.sched.tail := rfl
@[simp] theorem popTurn_reads (s : State) : (popTurn s).reads = s.reads := rfl
@[simp] theorem popTurn_draws (s : State) : (popTurn s).draws = s.draws := rfl

/-! ## busRead -/

@[simp] theorem busRead_chain (addr : BitVec 16) (s : State) : (busRead addr s).chain = s.chain := rfl
@[simp] theorem busRead_work (addr : BitVec 16) (s : State) : (busRead addr s).work = s.work := rfl
@[simp] theorem busRead_x (addr : BitVec 16) (s : State) : (busRead addr s).x = s.x := rfl
@[simp] theorem busRead_romT (addr : BitVec 16) (s : State) : (busRead addr s).romT = s.romT := rfl
@[simp] theorem busRead_srom (addr : BitVec 16) (s : State) : (busRead addr s).srom = s.srom := rfl
@[simp] theorem busRead_fsm (addr : BitVec 16) (s : State) : (busRead addr s).fsm = s.fsm := rfl
@[simp] theorem busRead_op (addr : BitVec 16) (s : State) : (busRead addr s).op = s.op := rfl
@[simp] theorem busRead_i (addr : BitVec 16) (s : State) : (busRead addr s).i = s.i := rfl
@[simp] theorem busRead_blk (addr : BitVec 16) (s : State) : (busRead addr s).blk = s.blk := rfl
@[simp] theorem busRead_nblk (addr : BitVec 16) (s : State) : (busRead addr s).nblk = s.nblk := rfl
@[simp] theorem busRead_lenQ (addr : BitVec 16) (s : State) : (busRead addr s).lenQ = s.lenQ := rfl
@[simp] theorem busRead_status (addr : BitVec 16) (s : State) : (busRead addr s).status = s.status := rfl
@[simp] theorem busRead_lenLo (addr : BitVec 16) (s : State) : (busRead addr s).lenLo = s.lenLo := rfl
@[simp] theorem busRead_lenHi (addr : BitVec 16) (s : State) : (busRead addr s).lenHi = s.lenHi := rfl
@[simp] theorem busRead_digest (addr : BitVec 16) (s : State) : (busRead addr s).digest = s.digest := rfl
@[simp] theorem busRead_mem (addr : BitVec 16) (s : State) : (busRead addr s).mem = s.mem := rfl
@[simp] theorem busRead_msgBytes (addr : BitVec 16) (s : State) : (busRead addr s).msgBytes = s.msgBytes := rfl
@[simp] theorem busRead_rst (addr : BitVec 16) (s : State) : (busRead addr s).rst = s.rst := rfl
@[simp] theorem busRead_host (addr : BitVec 16) (s : State) : (busRead addr s).host = s.host := rfl
@[simp] theorem busRead_sched (addr : BitVec 16) (s : State) : (busRead addr s).sched = s.sched := rfl
@[simp] theorem busRead_reads (addr : BitVec 16) (s : State) : (busRead addr s).reads = busReadWord s addr :: s.reads := rfl
@[simp] theorem busRead_draws (addr : BitVec 16) (s : State) : (busRead addr s).draws = s.draws + 4 := rfl

/-! ## resetAction -/

@[simp] theorem resetAction_chain (s : State) : (resetAction s).chain = initialValue := rfl
@[simp] theorem resetAction_romT (s : State) : (resetAction s).romT = s.romT := rfl
@[simp] theorem resetAction_srom (s : State) : (resetAction s).srom = s.srom := rfl
@[simp] theorem resetAction_fsm (s : State) : (resetAction s).fsm = Fsm.idle := rfl
@[simp] theorem resetAction_status (s : State) : (resetAction s).status = Status.reset := rfl
@[simp] theorem resetAction_lenLo (s : State) : (resetAction s).lenLo = 0#32 := rfl
@[simp] theorem resetAction_lenHi (s : State) : (resetAction s).lenHi = 0#32 := rfl
@[simp] theorem resetAction_digest (s : State) : (resetAction s).digest = Quad.zero := rfl
@[simp] theorem resetAction_mem (s : State) : (resetAction s).mem = [] := rfl
@[simp] theorem resetAction_msgBytes (s : State) : (resetAction s).msgBytes = s.msgBytes := rfl
@[simp] theorem resetAction_rst (s : State) : (resetAction s).rst = s.rst := rfl
@[simp] theorem resetAction_host (s : State) : (resetAction s).host = s.host := rfl
@[simp] theorem resetAction_sched (s : State) : (resetAction s).sched = s.sched := rfl
@[simp] theorem resetAction_reads (s : State) : (resetAction s).reads = s.reads := rfl
@[simp] theorem resetAction_draws (s : State) : (resetAction s).draws = s.draws + resetDraws := rfl

/-! ## STATUS -/

@[simp] theorem statusRejected_busy (code : ErrCode) (st : Status) : (statusRejected code st).busy = st.busy := rfl
@[simp] theorem statusRejected_done (code : ErrCode) (st : Status) : (statusRejected code st).done = st.done := rfl
@[simp] theorem statusRejected_err (code : ErrCode) (st : Status) : (statusRejected code st).err = true := rfl
@[simp] theorem statusRejected_errcode (code : ErrCode) (st : Status) : (statusRejected code st).errcode = code := rfl
@[simp] theorem statusCompleted_busy (st : Status) : (statusCompleted st).busy = false := rfl
@[simp] theorem statusCompleted_done (st : Status) : (statusCompleted st).done = true := rfl
@[simp] theorem statusCompleted_err (st : Status) : (statusCompleted st).err = st.err := rfl
@[simp] theorem statusCompleted_errcode (st : Status) : (statusCompleted st).errcode = st.errcode := rfl
@[simp] theorem statusAccepted_busy : statusAccepted.busy = true := rfl
@[simp] theorem statusAccepted_done : statusAccepted.done = false := rfl
@[simp] theorem statusAccepted_err : statusAccepted.err = false := rfl
@[simp] theorem statusAccepted_errcode : statusAccepted.errcode = .none := rfl
@[simp] theorem status_reset_busy : Status.reset.busy = false := rfl
@[simp] theorem status_reset_done : Status.reset.done = false := rfl
@[simp] theorem status_reset_err : Status.reset.err = false := rfl
@[simp] theorem status_reset_errcode : Status.reset.errcode = .none := rfl

end Sys2Proof.Machine
end

