-- ==== Sys2Proof/Laws/Bus.lean ====
section
/-! SUPPORT. The address map as lemmas (spec/20_memory.md R208, R211), and what a transaction can do. -/

namespace Sys2Proof.Machine

/-- The region of a transaction is decided by the address rounded down to a multiple of 4. -/
theorem addressed_eq (s : State) (addr : BitVec 16) : addressed s addr = regionOf s.msgBytes (addr.toNat / 4 * 4) := by
  rw [addressed, wordAddress_eq]

/-- 0x8000 up to the buffer's end is the buffer. -/
theorem regionOf_msgbuf {n a off : Nat} (h : a = 0x8000 + off) (ha : a < 0x10000) (hn : off < n) :
    regionOf n a = .msgbuf off := by
  have hoff : a % 0x8000 = off := by omega
  unfold regionOf
  have : ¬ a = 0x0000 ∧ ¬ a = 0x0004 ∧ ¬ a = 0x0008 ∧ ¬ a = 0x000C ∧ ¬ a < 0x0020 ∧ ¬ a < 0x8000 ∧ a < 0x8000 + n := by
    omega
  obtain ⟨h0, h1, h2, h3, h4, h5, h6⟩ := this
  simp only [h0, h1, h2, h3, h4, h5, h6, hoff, if_false, if_true]

/-- Above the buffer nothing is mapped. -/
theorem regionOf_unmapped {n a : Nat} (h : 0x8000 + n ≤ a) : regionOf n a = .unmapped := by
  unfold regionOf
  have : ¬ a = 0x0000 ∧ ¬ a = 0x0004 ∧ ¬ a = 0x0008 ∧ ¬ a = 0x000C ∧ ¬ a < 0x0020 ∧ ¬ a < 0x8000 ∧ ¬ a < 0x8000 + n := by
    omega
  obtain ⟨h0, h1, h2, h3, h4, h5, h6⟩ := this
  simp only [h0, h1, h2, h3, h4, h5, h6, if_false]

/-- 0x0020 to 0x7FFF is reserved. -/
theorem regionOf_reserved {n a : Nat} (h : 0x0020 ≤ a) (h' : a < 0x8000) : regionOf n a = .reserved := by
  unfold regionOf
  have : ¬ a = 0x0000 ∧ ¬ a = 0x0004 ∧ ¬ a = 0x0008 ∧ ¬ a = 0x000C ∧ ¬ a < 0x0020 := by omega
  obtain ⟨h0, h1, h2, h3, h4⟩ := this
  simp only [h0, h1, h2, h3, h4, h', if_false, if_true]

/-- 0x0010 to 0x001F are the DIGEST registers. -/
theorem regionOf_digest {n a : Nat} (h : 0x0010 ≤ a) (h' : a < 0x0020) : regionOf n a = .digest ((a - 0x0010) / 4) := by
  unfold regionOf
  have : ¬ a = 0x0000 ∧ ¬ a = 0x0004 ∧ ¬ a = 0x0008 ∧ ¬ a = 0x000C := by omega
  obtain ⟨h0, h1, h2, h3⟩ := this
  simp only [h0, h1, h2, h3, h', if_false, if_true]

/-- Address 0x0000 is CTRL. -/
@[simp] theorem regionOf_ctrl (n : Nat) : regionOf n 0 = .ctrl := rfl

/-- What a buffer region says of the address: `a = 0x8000 + off` with `off` inside the buffer. -/
theorem regionOf_eq_msgbuf {n a off : Nat} (ha : a < 0x10000) (h : regionOf n a = .msgbuf off) :
    a = 0x8000 + off ∧ off < n := by
  unfold regionOf at h
  repeat' split at h
  all_goals simp only [reduceCtorEq, Region.msgbuf.injEq] at h
  omega

/-- What a write can store: nothing, a LEN register, or lanes of a buffer word, and only with BUSY = 0. -/
theorem storeWrite_cases (r : Region) (be : BitVec 4) (wdata : Word) (s : State) :
    storeWrite r be wdata s = s ∨
    (s.status.busy = false ∧
      (storeWrite r be wdata s = { s with lenLo := mergeLanes be s.lenLo wdata } ∨
       storeWrite r be wdata s = { s with lenHi := mergeLanes be s.lenHi wdata } ∨
       ∃ off, r = .msgbuf off ∧ storeWrite r be wdata s = { s with mem := writeLanes be wdata off s.mem })) := by
  unfold storeWrite
  cases hb : s.status.busy with
  | true => simp
  | false => cases r <;> simp

/-- What a bus write can do: issue a command, or store. -/
theorem busWrite_cases (addr : BitVec 16) (be : BitVec 4) (wdata : Word) (s : State) :
    (addressed s addr = .ctrl ∧ be.getLsbD 0 = true ∧ busWrite addr be wdata s = exec (decodeCommand wdata) s) ∨
    (addressed s addr = .ctrl ∧ be.getLsbD 0 = false ∧ busWrite addr be wdata s = .next s) ∨
    (addressed s addr ≠ .ctrl ∧ busWrite addr be wdata s = .next (storeWrite (addressed s addr) be wdata s)) := by
  unfold busWrite
  by_cases h : addressed s addr = .ctrl
  · cases hb : be.getLsbD 0 <;> simp [h]
  · simp [h]

end Sys2Proof.Machine
end

