-- ==== Sys2Proof/Laws/PerInstr.lean ====
section
/-! SUPPORT. What holds of every instruction as syntax, one lemma per constructor. -/

namespace Sys2Proof.Laws.EncodeWidth

open Sys2Proof

/-- An instruction's encoding is as long as its format alone says (spec/30_encoding.md R317). -/
def Statement (i : Instr) : Prop := (encode i).length = i.format.bytes

theorem nop : Statement .nop := rfl
theorem init : Statement .init := rfl
theorem compress : Statement .compress := rfl
theorem hash : Statement .hash := rfl
theorem reservedOp47 (op : BitVec 4) : Statement (.reservedOp47 op) := rfl
theorem reservedOp8F (op : BitVec 4) : Statement (.reservedOp8F op) := rfl
theorem stepF (k : BitVec 4) (s : BitVec 5) : Statement (.stepF k s) := rfl
theorem stepG (k : BitVec 4) (s : BitVec 5) : Statement (.stepG k s) := rfl
theorem stepH (k : BitVec 4) (s : BitVec 5) : Statement (.stepH k s) := rfl
theorem stepI (k : BitVec 4) (s : BitVec 5) : Statement (.stepI k s) := rfl
theorem load : Statement .load := rfl
theorem round : Statement .round := rfl
theorem fold : Statement .fold := rfl
theorem assemble : Statement .assemble := rfl

end Sys2Proof.Laws.EncodeWidth
end

