-- ==== Sys2Proof/Laws/Run.lean ====
section
/-! SUPPORT. Runs of several steps, in terms of this machine's `step`. -/

namespace Sys2Proof.Machine

/-- A run of no step stays where it is. -/
theorem run_zero (s : State) : Host.Core.run Sys2Proof.core 0 s = .next s := rfl

/-- A run whose first step answers a next state goes on from it. -/
theorem run_of_step {s t : State} (n : Nat) (h : step s = .next t) :
    Host.Core.run Sys2Proof.core (n + 1) s = Host.Core.run Sys2Proof.core n t := by
  have hc : Sys2Proof.core.step s = .next t := h
  simp only [Host.Core.run, hc]

/-- A run of one step. -/
theorem run_one {s t : State} (h : step s = .next t) : Host.Core.run Sys2Proof.core 1 s = .next t := run_of_step 0 h

/-- A run is the run of its first part, then of its second. -/
theorem run_append : ∀ (n k : Nat) (s t : State), Host.Core.run Sys2Proof.core n s = .next t →
    Host.Core.run Sys2Proof.core (n + k) s = Host.Core.run Sys2Proof.core k t
  | 0, k, s, t, h => by
    obtain rfl : s = t := Host.Outcome.next.inj h
    rw [Nat.zero_add]
  | n + 1, k, s, t, h => by
    cases hs : step s with
    | next u =>
      rw [run_of_step n hs] at h
      rw [show n + 1 + k = (n + k) + 1 by omega, run_of_step (n + k) hs]
      exact run_append n k u t h
    | fault f =>
      have hc : Sys2Proof.core.step s = .fault f := hs
      simp [Host.Core.run, hc] at h
    | refused r =>
      have hc : Sys2Proof.core.step s = .refused r := hs
      simp [Host.Core.run, hc] at h

end Sys2Proof.Machine
end

