-- ==== Sys2Proof/Laws/Spec.lean ====
section
/-! SUPPORT. What each shared operation can do, said once: later proofs cite these and do not unfold the operation. -/

namespace Sys2Proof.Machine

/-! ## The ROMs -/

/-- An index 1..64 has an entry, at address `i - 1`. -/
theorem romEntry_of_range {α : Type} (rom : Vector α 64) {i : BitVec 7} (h1 : 1 ≤ i.toNat) (h2 : i.toNat ≤ 64) :
    romEntry rom i = some (rom[i.toNat - 1]'(by omega)) := by
  have h0 : i ≠ 0#7 := fun h => by simp [h] at h1
  simp [romEntry, h0, show i.toNat - 1 < 64 by omega]

/-- An index outside 1..64 has none. -/
theorem romEntry_eq_none {α : Type} (rom : Vector α 64) {i : BitVec 7} (h : i.toNat = 0 ∨ 64 < i.toNat) :
    romEntry rom i = none := by
  unfold romEntry
  split
  · rfl
  · rename_i h0
    have : i.toNat ≠ 0 := fun h => h0 (BitVec.eq_of_toNat_eq (by simpa using h))
    simp; omega

/-- An index with an entry is in 1..64. -/
theorem romEntry_some_range {α : Type} {rom : Vector α 64} {i : BitVec 7} {a : α} (h : romEntry rom i = some a) :
    1 ≤ i.toNat ∧ i.toNat ≤ 64 := by
  by_contra hc
  rw [romEntry_eq_none rom (by omega)] at h
  simp at h

/-! ## Collecting words -/

/-- When every word is available, the result holds them in order. -/
theorem collectWords_ok {word : Nat → Except Fault Word} {g : Nat → Word} :
    ∀ n : Nat, (∀ w < n, word w = .ok (g w)) → collectWords word n = .ok (Vector.ofFn fun k => g k.val)
  | 0, _ => by simp [collectWords]
  | n + 1, h => by
    have last : (Vector.ofFn fun k : Fin n => g k.val).push (g n) = Vector.ofFn fun k : Fin (n + 1) => g k.val := by
      ext k hk
      by_cases hkn : k = n
      · subst hkn; simp
      · simp [show k < n by omega]
    rw [collectWords, collectWords_ok n fun w hw => h w (by omega)]
    simp only [h n (by omega), last]

/-- A fault of the result is a fault of one of the words. -/
theorem collectWords_error {word : Nat → Except Fault Word} {f : Fault} :
    ∀ {n : Nat}, collectWords word n = .error f → ∃ w < n, word w = .error f
  | 0, h => by simp [collectWords] at h
  | n + 1, h => by
    unfold collectWords at h
    split at h
    · rename_i f' hf'
      obtain rfl : f' = f := by simpa using h
      obtain ⟨w, hw, hwf⟩ := collectWords_error hf'
      exact ⟨w, by omega, hwf⟩
    · split at h
      · rename_i f' hf'
        obtain rfl : f' = f := by simpa using h
        exact ⟨n, by omega, hf'⟩
      · simp at h

/-- A result means that every word is available. -/
theorem collectWords_all {word : Nat → Except Fault Word} :
    ∀ {n : Nat} {v : Vector Word n}, collectWords word n = .ok v → ∀ w < n, ∃ y, word w = .ok y
  | 0, _, _ => by simp
  | n + 1, _, h => by
    unfold collectWords at h
    split at h
    · simp at h
    · rename_i v' hv'
      split at h
      · simp at h
      · rename_i y hy
        intro w hw
        by_cases hwn : w = n
        · exact ⟨y, hwn ▸ hy⟩
        · exact collectWords_all hv' w (by omega)

/-- A word whose four bytes are available. -/
theorem readWord_ok {byte : Nat → Except Fault Byte} {off : Nat} {b0 b1 b2 b3 : Byte} (h0 : byte off = .ok b0)
    (h1 : byte (off + 1) = .ok b1) (h2 : byte (off + 2) = .ok b2) (h3 : byte (off + 3) = .ok b3) :
    readWord byte off = .ok (le32 b0 b1 b2 b3) := by
  simp only [readWord, h0, h1, h2, h3]
  rfl

/-- A word's fault is a fault of one of its bytes. -/
theorem readWord_error {byte : Nat → Except Fault Byte} {off : Nat} {f : Fault} (h : readWord byte off = .error f) :
    ∃ j < 4, byte (off + j) = .error f := by
  unfold readWord at h
  cases h0 : byte off with
  | error e => exact ⟨0, by omega, by simpa [h0, bind, Except.bind] using h⟩
  | ok b0 =>
    cases h1 : byte (off + 1) with
    | error e => exact ⟨1, by omega, by simpa [h0, h1, bind, Except.bind] using h⟩
    | ok b1 =>
      cases h2 : byte (off + 2) with
      | error e => exact ⟨2, by omega, by simpa [h0, h1, h2, bind, Except.bind] using h⟩
      | ok b2 =>
        cases h3 : byte (off + 3) with
        | error e => exact ⟨3, by omega, by simpa [h0, h1, h2, h3, bind, Except.bind] using h⟩
        | ok b3 => simp [h0, h1, h2, h3, bind, Except.bind, pure, Except.pure] at h

/-- The engine's read of a written byte inside the buffer. -/
theorem memRead1_ok {s : State} {off : Nat} {b : Byte} (h : off < s.msgBytes) (hb : Memory.get s.mem off = some b) :
    memRead1 s off = .ok b := by
  simp [memRead1, h, hb]

/-- The engine's read of an unwritten byte inside the buffer. -/
theorem memRead1_unwritten {s : State} {off : Nat} (h : off < s.msgBytes) (hb : Memory.get s.mem off = none) :
    memRead1 s off = .error .unwrittenByte := by
  simp [memRead1, h, hb]

/-! ## Meanings that can fault -/

/-- What a step operation can do. -/
theorem stepOperation_next {fn : AuxFn} {k : BitVec 4} {sh : BitVec 5} {s t : State}
    (h : stepOperation fn k sh s = .next t) :
    ∃ ti, constantOperand s = some ti ∧
      t = { s with work := stepQuad fn sh (scheduleOperand s k) ti s.work } := by
  unfold stepOperation at h
  split at h
  · simp at h
  · rename_i ti hti
    exact ⟨ti, hti, by simpa using h.symm⟩

/-- The four steps are one operation (R467). -/
theorem execMicroword_eq (m : Microword) (s : State) : execMicroword m s = stepOperation m.fn m.k m.s s := by
  obtain ⟨fn, k, sh⟩ := m
  cases fn <;> rfl

/-- The instruction of a microword and the step ROUND selects by its fields are the same. -/
theorem exec_toInstr (m : Microword) (s : State) : exec m.toInstr s = execMicroword m s := by
  obtain ⟨fn, k, sh⟩ := m
  cases fn <;> rfl

/-- What LOAD can do. -/
theorem execLoad_next {s t : State} (h : execLoad s = .next t) :
    ∃ x, collectWords (scheduleWord s) 16 = .ok x ∧
      t = { s with x := x, work := s.chain, i := 1#7, fsm := Fsm.round } := by
  unfold execLoad at h
  split at h
  · simp at h
  · rename_i x hx
    exact ⟨x, hx, by simpa using h.symm⟩

/-- LOAD when every word is available. -/
theorem execLoad_ok {s : State} {g : Nat → Word} (h : ∀ w < 16, scheduleWord s w = .ok (g w)) :
    execLoad s =
      .next { s with x := Vector.ofFn fun k => g k.val, work := s.chain, i := 1#7, fsm := Fsm.round } := by
  unfold execLoad
  rw [collectWords_ok 16 h]

/-- A fault of LOAD is a fault of one of the words. -/
theorem execLoad_fault {s : State} {f : Fault} (h : execLoad s = .fault f) :
    ∃ w < 16, scheduleWord s w = .error f := by
  unfold execLoad at h
  split at h
  · rename_i f' hf'
    obtain rfl : f' = f := by simpa using h
    exact collectWords_error hf'
  · simp at h

/-- LOAD never refuses. -/
theorem execLoad_not_refused {s : State} {r : Refusal} : execLoad s ≠ .refused r := by
  unfold execLoad
  split <;> simp

/-- What the fetch of a microword gives: R314's entry of the step index, decoded. -/
theorem fetchMicroword_ok {s : State} {m : Microword} (h : fetchMicroword s = .ok m) :
    ∃ u, microwordOperand s = some u ∧ romEntry stepRom s.i = some u ∧ decodeMicroword u = .ok m := by
  unfold fetchMicroword at h
  split at h
  · simp at h
  · rename_i u hu
    split at h
    · rename_i hrom
      split at h
      · rename_i m' hm
        obtain rfl : m' = m := by simpa using h
        exact ⟨u, hu, hrom, hm⟩
      · simp at h
    · simp at h

/-- The fetch of R314's own entry gives the microword it decodes to. -/
theorem fetchMicroword_entry {s : State} {u : BitVec 16} {m : Microword} (hu : microwordOperand s = some u)
    (hrom : romEntry stepRom s.i = some u) (hm : decodeMicroword u = .ok m) : fetchMicroword s = .ok m := by
  simp [fetchMicroword, hu, hrom, hm]

/-- The fetch of any other entry is a fault (R315). -/
theorem fetchMicroword_foreign {s : State} {u : BitVec 16} (hu : microwordOperand s = some u)
    (hrom : romEntry stepRom s.i ≠ some u) : fetchMicroword s = .error .stepRomEntry := by
  simp [fetchMicroword, hu, hrom]

/-- A fetch at an index outside 1..64 is a fault (R404). -/
theorem fetchMicroword_outside {s : State} (h : s.i.toNat = 0 ∨ 64 < s.i.toNat) : fetchMicroword s = .error .romIndex := by
  simp [fetchMicroword, microwordOperand, romEntry_eq_none _ h]

/-- What ROUND can do. -/
theorem execRound_next {s t : State} (h : execRound s = .next t) :
    ∃ u m ti, microwordOperand s = some u ∧ romEntry stepRom s.i = some u ∧ decodeMicroword u = .ok m ∧
      constantOperand s = some ti ∧
      t = advanceRound { s with work := stepQuad m.fn m.s (scheduleOperand s m.k) ti s.work } := by
  unfold execRound at h
  split at h
  · simp at h
  · rename_i m hf
    obtain ⟨u, hu, hrom, hm⟩ := fetchMicroword_ok hf
    cases he : execMicroword m s with
    | next r =>
      obtain ⟨ti, hti, hr⟩ := stepOperation_next ((execMicroword_eq m s).symm.trans he)
      simp only [he, Host.Outcome.next.injEq] at h
      exact ⟨u, m, ti, hu, hrom, hm, hti, by rw [← h, hr]⟩
    | fault f => simp [he] at h
    | refused r => simp [he] at h

/-! ## The step ROM is the source's table -/

/-- Entry `i` of the step ROM, for `i` in 1..64, decodes to the per-round table's parameters (R313, R314). -/
theorem stepRom_params : ∀ n : Fin 64, decodeMicroword stepRom[n.val] = .ok (stepParams (n.val + 1)) := by
  decide

/-- Entry `i` of the step ROM is word `i - 1` of the table. -/
theorem stepRom_table : ∀ n : Fin 64, stepRom[n.val] = stepTable.getD n.val 0 := by
  decide

/-- Every entry of the step ROM is a word of the table. -/
theorem stepRom_mem : ∀ n : Fin 64, stepRom[n.val] ∈ stepTable := by
  decide

/-- A word of the table is the entry of the step index that is one above its place. -/
theorem romEntry_stepRom_idxOf {u : BitVec 16} {a : Fin 64} (hu : u ∈ stepTable) (ha : stepTable.idxOf u = a.val) :
    romEntry stepRom (BitVec.ofNat 7 (a.val + 1)) = some u := by
  have hi : (BitVec.ofNat 7 (a.val + 1)).toNat = a.val + 1 := by simp; omega
  rw [romEntry_of_range _ (by omega) (by omega)]
  simp only [hi, Nat.add_sub_cancel, stepRom_table a]
  rw [← ha, List.getD_eq_getElem _ _ (List.idxOf_lt_length_of_mem hu), List.getElem_idxOf]

/-- A word that is none of the table's is the entry of no step index (R315). -/
theorem romEntry_stepRom_foreign {u : BitVec 16} (hu : u ∉ stepTable) (i : BitVec 7) : romEntry stepRom i ≠ some u := by
  intro h
  have hr := romEntry_some_range h
  rw [romEntry_of_range _ hr.1 hr.2] at h
  exact hu (Option.some.inj h ▸ stepRom_mem ⟨i.toNat - 1, by omega⟩)

/-- ROUND at a step index of the block: it writes the working registers, and goes on to `i + 1`, or from 64 to FOLD (R474). -/
theorem execRound_cases {s t : State} (h : execRound s = .next t) (hi : 1 ≤ s.i.toNat ∧ s.i.toNat ≤ 64) :
    ∃ w, (s.i.toNat = 64 ∧ t = { s with work := w, fsm := Fsm.fold }) ∨
      (s.i.toNat < 64 ∧ t = { s with work := w, i := s.i + 1#7 } ∧ (s.i + 1#7).toNat = s.i.toNat + 1) := by
  obtain ⟨u, m, ti, _, _, _, _, rfl⟩ := execRound_next h
  refine ⟨stepQuad m.fn m.s (scheduleOperand s m.k) ti s.work, ?_⟩
  unfold advanceRound
  by_cases he : s.i = 64#7
  · exact .inl ⟨by simp [he], by simp only [he, if_true]⟩
  · have hne : s.i.toNat ≠ 64 := fun h => he (BitVec.eq_of_toNat_eq (by simpa using h))
    refine .inr ⟨by omega, by simp only [he, if_false], ?_⟩
    rw [BitVec.toNat_add]
    simp
    omega

end Sys2Proof.Machine
end

