-- ==== Sys2Proof/Laws/Step.lean ====
section
/-! SUPPORT. What a step can do, said once: every fact about all steps is derived from these cases. -/

namespace Sys2Proof.Machine

/-- What the engine's turn can do. -/
theorem engineTurn_cases {s t : State} (h : engineTurn s = .next t) :
    (s.fsm = Fsm.idle ∧ t = s) ∨ (s.fsm = Fsm.load ∧ execLoad s = .next t) ∨
    (s.fsm = Fsm.round ∧ execRound s = .next t) ∨ (s.fsm = Fsm.fold ∧ execFold s = .next t) ∨
    (s.fsm = Fsm.assemble ∧ execAssemble s = .next t) := by
  unfold engineTurn at h
  split at h
  · rename_i h0
    exact .inl ⟨h0, by simpa using h.symm⟩
  · unfold decodeFsm at h
    by_cases h1 : s.fsm = Fsm.load
    · exact .inr (.inl ⟨h1, by rwa [if_pos h1] at h⟩)
    by_cases h2 : s.fsm = Fsm.round
    · exact .inr (.inr (.inl ⟨h2, by rwa [if_neg h1, if_pos h2] at h⟩))
    by_cases h3 : s.fsm = Fsm.fold
    · exact .inr (.inr (.inr (.inl ⟨h3, by rwa [if_neg h1, if_neg h2, if_pos h3] at h⟩)))
    by_cases h4 : s.fsm = Fsm.assemble
    · exact .inr (.inr (.inr (.inr ⟨h4, by rwa [if_neg h1, if_neg h2, if_neg h3, if_pos h4] at h⟩)))
    · rw [if_neg h1, if_neg h2, if_neg h3, if_neg h4] at h
      split at h <;> simp_all

/-- The engine's turn at each code. -/
theorem engineTurn_load {s : State} (h : s.fsm = Fsm.load) : engineTurn s = execLoad s := by
  unfold engineTurn
  rw [h]
  rfl

theorem engineTurn_round {s : State} (h : s.fsm = Fsm.round) : engineTurn s = execRound s := by
  unfold engineTurn
  rw [h]
  rfl

theorem engineTurn_fold {s : State} (h : s.fsm = Fsm.fold) : engineTurn s = execFold s := by
  unfold engineTurn
  rw [h]
  rfl

theorem engineTurn_assemble {s : State} (h : s.fsm = Fsm.assemble) : engineTurn s = execAssemble s := by
  unfold engineTurn
  rw [h]
  rfl

/-- What issuing a CTRL word can do: nothing, a rejection, or the acceptance of INIT, COMPRESS or HASH. -/
theorem command_cases {s t : State} {w : Word} (h : exec (decodeCommand w) s = .next t) :
    t = s ∨ (∃ code, code ≠ .none ∧ t = reject code s) ∨
    (s.status.busy = false ∧ t = { accept .init s with chain := initialValue, fsm := Fsm.assemble }) ∨
    (s.status.busy = false ∧ t = { accept .compress s with blk := 0, nblk := 1, fsm := Fsm.load }) ∨
    (s.status.busy = false ∧ (lengthOperand s).toNat ≤ s.msgBytes ∧
      t = { accept .hash s with
        lenQ := lengthOperand s
        chain := initialValue
        blk := 0
        nblk := blockCount (lengthOperand s).toNat
        fsm := Fsm.load }) := by
  unfold decodeCommand at h
  simp only at h
  split at h
  · exact .inl (by simpa [exec, execNop] using h.symm)
  split at h
  · simp only [exec, execInit] at h
    split at h
    · exact .inr (.inl ⟨.busy, by simp, by simpa using h.symm⟩)
    · exact .inr (.inr (.inl ⟨by simpa using ‹¬ s.status.busy = true›, by simpa using h.symm⟩))
  split at h
  · simp only [exec, execCompress] at h
    split at h
    · exact .inr (.inl ⟨.busy, by simp, by simpa using h.symm⟩)
    · exact .inr (.inr (.inr (.inl ⟨by simpa using ‹¬ s.status.busy = true›, by simpa using h.symm⟩)))
  split at h
  · simp only [exec, execHash] at h
    split at h
    · exact .inr (.inl ⟨.busy, by simp, by simpa using h.symm⟩)
    · split at h
      · exact .inr (.inl ⟨.len, by simp, by simpa using h.symm⟩)
      · exact .inr (.inr (.inr (.inr ⟨by simpa using ‹¬ s.status.busy = true›, by omega, by simpa using h.symm⟩)))
  split at h
  · exact .inr (.inl ⟨.cmd, by simp, by simpa [exec, execReservedOp47] using h.symm⟩)
  · exact .inr (.inl ⟨.cmd, by simp, by simpa [exec, execReservedOp8F] using h.symm⟩)

/-- Issuing a CTRL word always answers a next state. -/
theorem command_next (w : Word) (s : State) : ∃ t, exec (decodeCommand w) s = .next t := by
  unfold decodeCommand
  simp only
  repeat' split
  all_goals simp only [exec, execNop, execInit, execCompress, execHash, execReservedOp47, execReservedOp8F]
  all_goals repeat' split
  all_goals exact ⟨_, rfl⟩

/-- What the host's turn can do: issue a command; with BUSY = 0 store a LEN register or lanes of a buffer word; or read, wait or
be ignored, which touches the environment alone. -/
theorem hostTurn_cases {s t : State} (h : hostTurn s = .next t) :
    (∃ rest w, exec (decodeCommand w) { s with host := rest } = .next t) ∨
    (s.status.busy = false ∧ ∃ rest v, t = { s with host := rest, lenLo := v }) ∨
    (s.status.busy = false ∧ ∃ rest v, t = { s with host := rest, lenHi := v }) ∨
    (s.status.busy = false ∧ ∃ rest be wdata off, off % 4 = 0 ∧ off < s.msgBytes ∧
      t = { s with host := rest, mem := writeLanes be wdata off s.mem }) ∨
    (∃ rest reads draws, t = { s with host := rest, reads := reads, draws := draws }) := by
  unfold hostTurn at h
  split at h
  · exact .inr (.inr (.inr (.inr ⟨s.host, s.reads, s.draws, by simpa using h.symm⟩)))
  · rename_i addr be wdata rest _
    rcases busWrite_cases addr be wdata { s with host := rest } with ⟨_, _, he⟩ | ⟨_, _, he⟩ | ⟨_, he⟩
    · exact .inl ⟨rest, wdata, he ▸ h⟩
    · exact .inr (.inr (.inr (.inr ⟨rest, s.reads, s.draws, by simpa [he] using h.symm⟩)))
    · rw [he] at h
      have ht := Host.Outcome.next.inj h
      rcases storeWrite_cases (addressed { s with host := rest } addr) be wdata { s with host := rest } with
        hs | ⟨hb, hs | hs | ⟨off, hr, hs⟩⟩ <;> rw [← ht, hs]
      · exact .inr (.inr (.inr (.inr ⟨rest, s.reads, s.draws, rfl⟩)))
      · exact .inr (.inl ⟨hb, rest, _, rfl⟩)
      · exact .inr (.inr (.inl ⟨hb, rest, _, rfl⟩))
      · rw [addressed_eq] at hr
        obtain ⟨ha, hoff⟩ := regionOf_eq_msgbuf (by have := addr.isLt; omega) hr
        exact .inr (.inr (.inr (.inl ⟨hb, rest, be, wdata, off, by omega, hoff, rfl⟩)))
  · rename_i addr rest _
    exact .inr (.inr (.inr (.inr ⟨rest, busReadWord { s with host := rest } addr :: s.reads, s.draws + 4, by
      simpa [busRead] using h.symm⟩)))
  · rename_i rest _
    obtain rfl : pollTurn rest s = t := by simpa using h
    unfold pollTurn
    split
    · exact .inr (.inr (.inr (.inr ⟨s.host, _, _, rfl⟩)))
    · exact .inr (.inr (.inr (.inr ⟨rest, _, _, rfl⟩)))

/-- The host's turn always answers a next state. -/
theorem hostTurn_next (s : State) : ∃ t, hostTurn s = .next t := by
  unfold hostTurn
  split
  · exact ⟨_, rfl⟩
  · rename_i addr be wdata rest _
    rcases busWrite_cases addr be wdata { s with host := rest } with ⟨_, _, he⟩ | ⟨_, _, he⟩ | ⟨_, he⟩
    · rw [he]; exact command_next _ _
    · exact ⟨_, he⟩
    · exact ⟨_, he⟩
  · exact ⟨_, rfl⟩
  · exact ⟨_, rfl⟩

/-- What a turn of the datapath alone can do: write the working registers. -/
theorem datapathTurn_cases {s t : State} (h : datapathTurn s = .next t) : ∃ w, t = { s with work := w } := by
  unfold datapathTurn at h
  split at h
  · rename_i m _
    rw [exec_toInstr, execMicroword_eq] at h
    obtain ⟨ti, -, rfl⟩ := stepOperation_next h
    exact ⟨_, rfl⟩
  · simp at h

/-- What a step can do: a reset edge, the release of reset, or one turn of the host, the engine or the datapath alone. -/
theorem step_cases {s t : State} (h : step s = .next t) :
    (∃ u, t = resetAction u ∧ u.romT = s.romT ∧ u.srom = s.srom ∧ u.msgBytes = s.msgBytes ∧
      (s.rst = true ∨ nextTurn s = .rst true)) ∨
    (nextTurn s = .rst false ∧ t = { popTurn s with rst := false }) ∨
    (s.rst = false ∧ nextTurn s = .host ∧ hostTurn (popTurn s) = .next t) ∨
    (s.rst = false ∧ nextTurn s = .engine ∧ engineTurn (popTurn s) = .next t) ∨
    (s.rst = false ∧ nextTurn s = .datapath ∧ datapathTurn (popTurn s) = .next t) := by
  unfold step machineStep at h
  cases hn : nextTurn s with
  | rst level =>
    rw [hn] at h
    cases level with
    | true => exact .inl ⟨{ popTurn s with rst := true }, by simpa [takeTurn] using h.symm, rfl, rfl, rfl, .inr rfl⟩
    | false => exact .inr (.inl ⟨rfl, by simpa [takeTurn] using h.symm⟩)
  | host =>
    rw [hn] at h
    cases hr : s.rst with
    | true =>
      refine .inl ⟨hostInReset (popTurn s), by simpa [takeTurn, hr] using h.symm, ?_, ?_, ?_, .inl rfl⟩ <;>
        · unfold hostInReset
          split <;> rfl
    | false => exact .inr (.inr (.inl ⟨rfl, rfl, by simpa [takeTurn, hr] using h⟩))
  | engine =>
    rw [hn] at h
    cases hr : s.rst with
    | true => exact .inl ⟨popTurn s, by simpa [takeTurn, hr] using h.symm, rfl, rfl, rfl, .inl rfl⟩
    | false => exact .inr (.inr (.inr (.inl ⟨rfl, rfl, by simpa [takeTurn, hr] using h⟩)))
  | datapath =>
    rw [hn] at h
    cases hr : s.rst with
    | true => exact .inl ⟨popTurn s, by simpa [takeTurn, hr] using h.symm, rfl, rfl, rfl, .inl rfl⟩
    | false => exact .inr (.inr (.inr (.inr ⟨rfl, rfl, by simpa [takeTurn, hr] using h⟩)))

/-- The engine's turn outside reset. -/
theorem step_engine {s : State} (hr : s.rst = false) (hn : nextTurn s = .engine) : step s = engineTurn (popTurn s) := by
  simp [step, machineStep, hn, takeTurn, hr]

/-- The host's turn outside reset. -/
theorem step_host {s : State} (hr : s.rst = false) (hn : nextTurn s = .host) : step s = hostTurn (popTurn s) := by
  simp [step, machineStep, hn, takeTurn, hr]

/-- A turn of the datapath alone, outside reset. -/
theorem step_datapath {s : State} (hr : s.rst = false) (hn : nextTurn s = .datapath) : step s = datapathTurn (popTurn s) := by
  simp [step, machineStep, hn, takeTurn, hr]

end Sys2Proof.Machine
end

