-- ==== Sys2Proof/Machine/HostProgram.lean ====
section
/-! DEFINITION. The notation of host programs: spec/30_encoding.md R318, R319. A host program is a list of host operations,
performed in order. -/

namespace Sys2Proof.Machine

/-- `WR addr, data` (R318). -/
def wr (addr : BitVec 16) (data : Word) : HostOp := .write addr 0xF#4 data

/-- `RD addr` (R318). -/
def rd (addr : BitVec 16) : HostOp := .read addr

/-- `NOP` (R319). -/
def progNop : List HostOp := [wr 0x0000#16 0x00000000#32]

/-- `INIT` (R319). -/
def progInit : List HostOp := [wr 0x0000#16 0x00000001#32]

/-- `COMPRESS` (R319). -/
def progCompress : List HostOp := [wr 0x0000#16 0x00000002#32]

/-- `HASH` (R319). -/
def progHash : List HostOp := [wr 0x0000#16 0x00000003#32]

/-- `SETLEN n` (R319). -/
def progSetlen (n : BitVec 64) : List HostOp :=
  [wr 0x0008#16 (n.extractLsb' 0 32), wr 0x000C#16 (n.extractLsb' 32 32)]

/-- `POLL` (R319). -/
def progPoll : List HostOp := [.poll]

/-- `GETDIGEST` (R319). -/
def progGetdigest : List HostOp := [rd 0x0010#16, rd 0x0014#16, rd 0x0018#16, rd 0x001C#16]

/-- `PUTMSG off, w`, `off` a multiple of 4 (R319). -/
def progPutmsg (off : BitVec 16) (w : Word) : List HostOp := [wr (0x8000#16 + off) w]

end Sys2Proof.Machine
end

