-- ==== Sys2Proof/Tests/Slice0.lean ====
section
/-! SUPPORT. The model's own tests: expected values are from spec/95_test_vectors.md and the worked examples of the rules. The
second half shows, for every statement with hypotheses, a concrete input that meets them. -/

namespace Sys2Proof.Tests

open Sys2Proof Sys2Proof.Machine

/-! ## Helpers -/

/-- The next state of an outcome, if it is one. -/
def after (o : Host.Outcome State Fault Refusal) : Option State :=
  match o with
  | .next t => some t
  | .fault _ => none
  | .refused _ => none

/-- Bytes from numerals. -/
def bytes (l : List Nat) : List Byte := l.map (BitVec.ofNat 8)

/-- A buffer that holds `l` from offset 0. -/
def bufferOf (l : List Byte) : Memory := (List.range l.length).zip l

/-- `X[w] = w` (95_test_vectors.md section 2.5). -/
def countingX : Vector Word 16 := Vector.ofFn fun k => BitVec.ofNat 32 k.val

/-- The start of section 2.5 at step index `i`. -/
def stepStart (i : BitVec 7) : State :=
  { State.reset with
    work := { a := 0x01234567#32, b := 0x89ABCDEF#32, c := 0xFEDCBA98#32, d := 0x76543210#32 }
    x := countingX
    i := i }

/-- All four working registers and all of X at one value, at step index `i`. -/
def uniformStart (w : Word) (xw : Word) (i : BitVec 7) : State :=
  { State.reset with work := { a := w, b := w, c := w, d := w }, x := Vector.replicate 16 xw, i := i }

/-- STATUS from its fields. -/
def statusOf (busy done err : Bool) (code : ErrCode) : Status := { busy := busy, done := done, err := err, errcode := code }

/-- A machine with a given STATUS, otherwise as reset leaves it. -/
def withStatus (st : Status) : State := { State.reset with status := st }

/-- The STATUS word after an instruction. -/
def statusAfter (i : Instr) (s : State) : Option Word := (after (exec i s)).map fun t => statusWord t.status

/-- The working registers after an instruction. -/
def workAfter (i : Instr) (s : State) : Option Quad := (after (exec i s)).map (·.work)

/-! ## WellFormed: an ill-formed term for each check, refused -/

theorem test_wellFormed_refuses_reserved47_below : (Instr.reservedOp47 0x3#4).wellFormed = false := by decide
theorem test_wellFormed_refuses_reserved47_above : (Instr.reservedOp47 0x8#4).wellFormed = false := by decide
theorem test_wellFormed_refuses_reserved8F_below : (Instr.reservedOp8F 0x7#4).wellFormed = false := by decide
theorem test_wellFormed_accepts_bounds :
    (Instr.reservedOp47 0x4#4).wellFormed = true ∧ (Instr.reservedOp47 0x7#4).wellFormed = true ∧
    (Instr.reservedOp8F 0x8#4).wellFormed = true ∧ (Instr.reservedOp8F 0xF#4).wellFormed = true ∧
    (Instr.stepF 0xF#4 0x1F#5).wellFormed = true := by decide

/-! ## Decoding words written out from the layouts of R301, R310, R316 (95_test_vectors.md section 2.9) -/

theorem test_decode_nop : decode .ctrlw (bytes [0x10, 0, 0, 0]) = .ok (.nop, []) := by decide
theorem test_decode_init : decode .ctrlw (bytes [0x01, 0, 0, 0]) = .ok (.init, []) := by decide
theorem test_decode_compress : decode .ctrlw (bytes [0x02, 0, 0, 0, 0x99]) = .ok (.compress, bytes [0x99]) := by decide
theorem test_decode_hash : decode .ctrlw (bytes [0xF3, 0xFF, 0xFF, 0xFF]) = .ok (.hash, []) := by decide
theorem test_decode_reserved47 :
    decodeTableWord 32 0x4 = some (.reservedOp47 4) ∧ decodeTableWord 32 0x7 = some (.reservedOp47 7) := by decide
theorem test_decode_reserved8F :
    decodeTableWord 32 0x8 = some (.reservedOp8F 8) ∧ decodeTableWord 32 0xF = some (.reservedOp8F 15) := by decide
theorem test_decode_stepF : decode .stepw (bytes [0xBC, 0x05]) = .ok (.stepF 15 22, []) := by decide
theorem test_decode_stepG : decode .stepw (bytes [0x45, 0x01]) = .ok (.stepG 1 5, []) := by decide
theorem test_decode_stepH : decode .stepw (bytes [0x16, 0x01]) = .ok (.stepH 5 4, []) := by decide
theorem test_decode_stepI : decode .stepw (bytes [0x9F, 0x02]) = .ok (.stepI 7 10, []) := by decide
theorem test_decode_load : decodeTableWord 8 1 = some .load := by decide
theorem test_decode_round : decodeTableWord 8 2 = some .round := by decide
theorem test_decode_fold : decodeTableWord 8 3 = some .fold := by decide
theorem test_decode_assemble : decodeTableWord 8 4 = some .assemble := by decide
theorem test_decode_rejects :
    decode .stepw (bytes [0x00, 0x08]) = .error .stepReserved ∧ decode .fsm (bytes [0]) = .error .fsmIdle ∧
    decode .fsm (bytes [5]) = .error .fsmUnreachable ∧ decode .fsm (bytes [7]) = .error .fsmUnreachable ∧
    decode .fsm (bytes [8]) = .error .fsmWide ∧ decode .ctrlw (bytes [3, 0, 0]) = .error .truncated ∧
    decode .stepw (bytes [0]) = .error .truncated ∧ decode .fsm [] = .error .truncated ∧
    decodeTableWord 24 0 = none := by decide

/-! ## The ROMs (R406, R314) and the datapath's functions (sections 2.2, 2.3, 2.5) -/

theorem test_constants_sane : constantTable.length = 64 ∧ constantTable.Nodup ∧ 0#32 ∉ constantTable := by decide
theorem test_constants_selected :
    romEntry constantRom 1#7 = some 0xD76AA478#32 ∧ romEntry constantRom 16#7 = some 0x49B40821#32 ∧
    romEntry constantRom 48#7 = some 0xC4AC5665#32 ∧ romEntry constantRom 64#7 = some 0xEB86D391#32 ∧
    romEntry constantRom 0#7 = none ∧ romEntry constantRom 65#7 = none := by decide
theorem test_rotl :
    rotl 0x80000001#32 7#5 = 0x000000C0#32 ∧ rotl 0x12345678#32 4#5 = 0x23456781#32 ∧
    rotl 0x12345678#32 0#5 = 0x12345678#32 ∧ rotl 0x12345678#32 31#5 = 0x091A2B3C#32 := by decide
theorem test_aux :
    auxF 0x12345678#32 0x9ABCDEF0#32 0x0FEDCBA9#32 = 0x1FFDDFF1#32 ∧
    auxG 0x12345678#32 0x9ABCDEF0#32 0x0FEDCBA9#32 = 0x92345678#32 ∧
    auxH 0x12345678#32 0x9ABCDEF0#32 0x0FEDCBA9#32 = 0x87654321#32 ∧
    auxI 0x12345678#32 0x9ABCDEF0#32 0x0FEDCBA9#32 = 0x688AA88E#32 := by decide

/-! ## One step of each instruction -/

/-- R544's worked example. -/
theorem test_nop_keeps_status : statusAfter .nop (withStatus (statusOf false true false .none)) = some 0x00000002#32 := by
  decide
theorem test_nop_while_busy : statusAfter .nop (withStatus (statusOf true false true .busy)) = some 0x00000025#32 := by decide

/-- Section 2.11: accepted from idle. -/
theorem test_init_accepted : statusAfter .init State.reset = some 0x00000001#32 := by decide
/-- R605's example. -/
theorem test_init_while_busy : statusAfter .init (withStatus (statusOf true false false .none)) = some 0x00000025#32 := by
  decide

theorem test_compress_accepted : statusAfter .compress (withStatus (statusOf false true true .cmd)) = some 0x00000001#32 := by
  decide
theorem test_compress_keeps_chain :
    (after (exec .compress { State.reset with chain := stepStart 1#7 |>.work })).map (fun t => (t.chain.a, t.nblk, t.fsm))
      = some (0x01234567#32, 1, 1#3) := by decide

/-- Section 2.11: L = MSG_BYTES is legal, L = 4097 is not. -/
theorem test_hash_length_bound :
    statusAfter .hash { withStatus (statusOf false true false .none) with lenLo := 4096#32 } = some 0x00000001#32 ∧
    statusAfter .hash { withStatus (statusOf false true false .none) with lenLo := 4097#32 } = some 0x00000036#32 ∧
    statusAfter .hash { withStatus (statusOf false true false .none) with lenHi := 1#32 } = some 0x00000036#32 := by decide
/-- R429: L = 55 takes one block, L = 56 two. -/
theorem test_hash_blocks :
    (after (exec .hash { State.reset with lenLo := 55#32 })).map (·.nblk) = some 1 ∧
    (after (exec .hash { State.reset with lenLo := 56#32 })).map (·.nblk) = some 2 := by decide

/-- R604's example, and section 2.11. -/
theorem test_reserved47 :
    statusAfter (.reservedOp47 7#4) State.reset = some 0x00000014#32 ∧
    statusAfter (.reservedOp47 7#4) (withStatus (statusOf false true false .none)) = some 0x00000016#32 := by decide
/-- Section 2.11: CMD overwrites BUSY's code; BUSY stays 1. -/
theorem test_reserved8F :
    statusAfter (.reservedOp8F 15#4) (withStatus (statusOf true false true .busy)) = some 0x00000015#32 := by decide

theorem test_stepF :
    workAfter (.stepF 0 7) (stepStart 1#7)
      = some { a := 0x76543210#32, b := 0x3EFE09DA#32, c := 0x89ABCDEF#32, d := 0xFEDCBA98#32 } := by decide
theorem test_stepF_wraps :
    workAfter (.stepF 0 7) (uniformStart 0xFFFFFFFF#32 0xFFFFFFFF#32 1#7)
      = some { a := 0xFFFFFFFF#32, b := 0xB5523AEA#32, c := 0xFFFFFFFF#32, d := 0xFFFFFFFF#32 } := by decide
theorem test_stepG :
    workAfter (.stepG 1 5) (stepStart 17#7)
      = some { a := 0x76543210#32, b := 0x82EA383E#32, c := 0x89ABCDEF#32, d := 0xFEDCBA98#32 } := by decide
theorem test_stepG_last :
    workAfter (.stepG 12 20) (stepStart 32#7)
      = some { a := 0x76543210#32, b := 0x31FD3B50#32, c := 0x89ABCDEF#32, d := 0xFEDCBA98#32 } := by decide
theorem test_stepH :
    workAfter (.stepH 5 4) (stepStart 33#7)
      = some { a := 0x76543210#32, b := 0xADB80F3F#32, c := 0x89ABCDEF#32, d := 0xFEDCBA98#32 } := by decide
theorem test_stepH_last :
    workAfter (.stepH 2 23) (stepStart 48#7)
      = some { a := 0x76543210#32, b := 0x248F475F#32, c := 0x89ABCDEF#32, d := 0xFEDCBA98#32 } := by decide
theorem test_stepI :
    workAfter (.stepI 0 6) (stepStart 49#7)
      = some { a := 0x76543210#32, b := 0xBAA3968A#32, c := 0x89ABCDEF#32, d := 0xFEDCBA98#32 } := by decide
/-- R473: I(0, 0, 0) is all ones. -/
theorem test_stepI_zero :
    workAfter (.stepI 9 21) (uniformStart 0#32 0#32 64#7)
      = some { a := 0#32, b := 0x721D70DA#32, c := 0#32, d := 0#32 } := by decide

/-- A machine running HASH on `l`, with `nblk` counted and block `blk` next. -/
def hashing (l : List Byte) (blk : Nat) : State :=
  { State.reset with
    status := statusOf true false false .none
    fsm := Fsm.load
    op := .hash
    mem := bufferOf l
    lenLo := BitVec.ofNat 32 l.length
    lenQ := BitVec.ofNat 64 l.length
    blk := blk
    nblk := blockCount l.length }

/-- Section 2.4: the "abc" row. -/
theorem test_load_abc :
    (after (exec .load (hashing (bytes [0x61, 0x62, 0x63]) 0))).map (fun t => (t.x[0], t.x[1], t.x[14], t.x[15], t.work.b, t.i))
      = some (0x80636261#32, 0#32, 0x18#32, 0#32, 0xEFCDAB89#32, 1#7) := by decide
/-- Section 2.4: `a`x56, block 1, which holds no message byte. -/
theorem test_load_last_block :
    (after (exec .load (hashing (List.replicate 56 0x61#8) 1))).map (fun t => (t.x[0], t.x[13], t.x[14], t.x[15]))
      = some (0#32, 0#32, 0x1C0#32, 0#32) := by decide

/-- Section 2.6: step 49 of the empty message. -/
theorem test_round :
    (after (exec .round
      { State.reset with
        fsm := Fsm.round
        work := { a := 0x3F55EDFD#32, b := 0xCA7D2DBD#32, c := 0x68D84EA2#32, d := 0x22A31F54#32 }
        x := (Vector.replicate 16 0#32).set 0 0x80#32
        i := 49#7 })).map (fun t => (t.work.b, t.work.a, t.i, t.fsm))
      = some (0x93AA2577#32, 0x22A31F54#32, 50#7, 2#3) := by decide
/-- R474: at i = 64 ROUND goes on to FOLD and leaves i at 64. -/
theorem test_round_last :
    (after (exec .round { uniformStart 0#32 0#32 64#7 with fsm := Fsm.round })).map (fun t => (t.work.b, t.i, t.fsm))
      = some (0x721D70DA#32, 64#7, 3#3) := by decide

/-- Section 2.7: each word wraps on its own. -/
theorem test_fold_wraps :
    (after (exec .fold
      { State.reset with
        work := { a := 0xFFFFFFFF#32, b := 0x10325477#32, c := 0x67452302#32, d := 0x98BADCFF#32 }
        nblk := 1 })).map (fun t => (t.chain, t.fsm))
      = some ({ a := 0x67452300#32, b := 0#32, c := 0#32, d := 0xA8ED3175#32 }, 4#3) := by decide
theorem test_fold_next_block : (after (exec .fold { State.reset with nblk := 2 })).map (fun t => (t.blk, t.fsm)) = some (1, 1#3) := by
  decide

/-- Section 2.11: DONE is set and the error is kept. -/
theorem test_assemble_keeps_error :
    statusAfter .assemble (withStatus (statusOf true false true .cmd)) = some 0x00000016#32 := by decide
/-- R521: after INIT it publishes the IV. -/
theorem test_assemble_publishes :
    (after (exec .assemble { State.reset with fsm := Fsm.assemble })).map (fun t => (t.digest, t.fsm))
      = some ({ a := 0x67452301#32, b := 0xEFCDAB89#32, c := 0x98BADCFE#32, d := 0x10325476#32 }, 0#3) := by decide

/-! ## The bus: program P6 -/

/-- P6 steps 1 and 2: word 0x8000, lane 1 only. -/
theorem test_bus_lanes :
    ((after (busWrite 0x8000#16 0xF#4 0x44332211#32 State.reset)).bind fun s =>
      (after (busWrite 0x8003#16 0x2#4 0x0000AA00#32 s)).map fun t => busReadWord t 0x8002#16) = some 0x4433AA11#32 := by decide
/-- P6 step 6, and step 7 (no command with be[0] = 0). -/
theorem test_bus_len :
    (after (busWrite 0x0008#16 0x1#4 0xFFFFFF04#32 State.reset)).map (fun t => (t.lenLo, t.lenHi)) = some (4#32, 0#32) ∧
    after (busWrite 0x0000#16 0xE#4 0x00000003#32 State.reset) = some State.reset := by decide
/-- R711: a write of the buffer while BUSY is lost. -/
theorem test_bus_busy :
    (after (busWrite 0x8000#16 0xF#4 0x44332211#32 (withStatus (statusOf true false false .none)))).map (·.mem) = some [] := by
  decide
/-- R319: the expansions of SETLEN and PUTMSG. -/
theorem test_pseudo_instructions :
    progSetlen 0x100000003#64 = [.write 0x0008#16 0xF#4 3#32, .write 0x000C#16 0xF#4 1#32] ∧
    progPutmsg 0x38#16 0x80#32 = [.write 0x8038#16 0xF#4 0x80#32] := by decide

/-! ## The digest -/

/-- R527's bytes and text. -/
theorem test_digest_rendering :
    renderHex (digestBytes { a := 0xD98C1DD4#32, b := 0x04B2008F#32, c := 0x980980E9#32, d := 0x7E42F8EC#32 })
      = "d41d8cd98f00b204e9800998ecf8427e".toList := by decide
/-- R430 and section 2.1: the padded "abc". -/
theorem test_padding_abc :
    paddedMessage (bytes [0x61, 0x62, 0x63])
      = bytes [0x61, 0x62, 0x63, 0x80] ++ List.replicate 52 0#8 ++ bytes [0x18, 0, 0, 0, 0, 0, 0, 0] := by decide +kernel
/-- Section 1.1: the source's vector for the empty message. -/
theorem test_digest_empty :
    digestOf [] = { a := 0xD98C1DD4#32, b := 0x04B2008F#32, c := 0x980980E9#32, d := 0x7E42F8EC#32 } := by decide +kernel
/-- Section 1.1: the source's vector for "abc". -/
theorem test_digest_abc :
    digestOf (bytes [0x61, 0x62, 0x63]) = { a := 0x98500190#32, b := 0xB04FD23C#32, c := 0x7D3F96D6#32, d := 0x727FE128#32 } := by
  decide +kernel

/-! ## Placing a word: the next step runs it, from reset -/

theorem test_placed_words_run :
    (after (step (State.reset.withFetchWord 32 1))).map (·.fsm) = some 4#3 ∧
    (after (step (State.reset.withFetchWord 16 0x01C0))).map (·.work.b) = some 0xB5523C6B#32 ∧
    (after (step (State.reset.withFetchWord 16 0x0567))).map (·.work.b) = some 0x721D70DA#32 ∧
    (after (step (State.reset.withFetchWord 8 1))).map (fun t => (t.fsm, t.x[0])) = some (2#3, 0x80#32) ∧
    (after (step (State.reset.withFetchWord 8 2))).map (fun t => (t.fsm, t.i)) = some (2#3, 2#7) := by decide

/-- R315 and 93_implementation_defined.md item 17: a word outside the 64 entries (S = 31, S = 0) reaches no datapath. -/
theorem test_placed_foreign_microword :
    step (State.reset.withFetchWord 16 0x07C0) = .fault .stepRomEntry ∧
    step (State.reset.withFetchWord 16 0) = .fault .stepRomEntry := ⟨rfl, rfl⟩

/-! ## Witnesses: a concrete input that meets each statement's hypotheses -/

/-- The invariant as a computation, for concrete states. -/
def invCheck (s : State) : Bool :=
  let busy := s.status.busy
  let block := decide (s.fsm = Fsm.load ∨ s.fsm = Fsm.round ∨ s.fsm = Fsm.fold)
  decide (Config.legalCapacity s.msgBytes) && decide (Memory.wf s.mem) && s.mem.all (fun c => decide (c.1 < s.msgBytes)) &&
  decide (s.romT = constantRom) && decide (s.srom = stepRom) && decide (s.fsm.toNat ≤ 4) &&
  (busy == decide (s.fsm ≠ Fsm.idle)) && (!busy || !s.status.done) &&
  (!s.status.err == decide (s.status.errcode = .none)) &&
  (!decide (s.fsm = Fsm.round) || decide (1 ≤ s.i.toNat ∧ s.i.toNat ≤ 64)) &&
  (!block || decide (s.blk < s.nblk)) && (!block || decide (s.op = .compress ∨ s.op = .hash)) &&
  (!block || decide (s.op ≠ .compress) || decide (s.nblk = 1)) &&
  (!block || decide (s.op ≠ .hash) ||
    decide (s.lenQ = lengthOperand s ∧ s.lenQ.toNat ≤ s.msgBytes ∧ s.nblk = blockCount s.lenQ.toNat)) &&
  (!s.status.done || decide (s.digest = s.chain))

theorem inv_of_check {s : State} (h : invCheck s = true) : s.Inv := by
  simp only [invCheck, Bool.and_eq_true, Bool.or_eq_true, Bool.not_eq_true', decide_eq_true_eq, decide_eq_false_iff_not,
    List.all_eq_true, beq_iff_eq] at h
  obtain ⟨⟨⟨⟨⟨⟨⟨⟨⟨⟨⟨⟨⟨⟨h1, h2⟩, h3⟩, h4⟩, h5⟩, h6⟩, h7⟩, h8⟩, h9⟩, h10⟩, h11⟩, h12⟩, h13⟩, h14⟩, h15⟩ := h
  refine ⟨h1, h2, h3, h4, h5, h6, ?_, ?_, ?_, ?_, ?_, ?_, ?_, ?_, ?_⟩
  · rw [h7, decide_eq_true_eq]
  · intro hb; rcases h8 with h | h
    · simp [hb] at h
    · exact h
  · cases he : s.status.err <;> simp [he] at h9 ⊢ <;> exact h9
  · intro hf; exact h10.resolve_left fun hn => hn hf
  · intro hb; exact h11.resolve_left fun hn => hn hb
  · intro hb; exact h12.resolve_left fun hn => hn hb
  · intro hb ho; exact h13.resolve_left fun hn => hn.elim (fun hn => hn hb) (fun hn => hn ho)
  · intro hb ho; exact h14.resolve_left fun hn => hn.elim (fun hn => hn hb) (fun hn => hn ho)
  · intro hd; rcases h15 with h | h
    · simp [hd] at h
    · exact h

/-- The three-byte message of program P1. -/
def abc : List Byte := bytes [0x61, 0x62, 0x63]

/-- A message of 64 zero bytes: one raw block. -/
def zeros64 : List Byte := List.replicate 64 0#8

/-- IDLE with the message `l` in the buffer and its length in LEN. -/
def idleWith (l : List Byte) : State := { State.reset with mem := bufferOf l, lenLo := BitVec.ofNat 32 l.length }

/-- A machine running COMPRESS on `l`. -/
def compressing (l : List Byte) : State :=
  { State.reset with
    status := statusOf true false false .none
    fsm := Fsm.load
    op := .compress
    mem := bufferOf l
    nblk := 1 }

/-- A machine between ROUNDs, at step index `i`, of a one-block HASH of the empty message. -/
def rounding (i : BitVec 7) : State := { hashing [] 0 with fsm := Fsm.round, i := i }

/-- A machine before FOLD of block `blk` of a two-block HASH. -/
def folding (blk : Nat) : State := { hashing (List.replicate 56 0x61#8) blk with fsm := Fsm.fold }

/-- A machine before the ASSEMBLE of INIT. -/
def assembling : State := { State.reset with status := statusOf true false false .none, fsm := Fsm.assemble }

theorem holdsMessage_abc : (hashing abc 0).holdsMessage abc := by
  unfold State.holdsMessage
  decide

theorem holdsMessage_zeros64 : (compressing zeros64).holdsMessage zeros64 := by
  unfold State.holdsMessage
  decide +kernel

theorem witness_ResetEdgeFromAnyState : ∃ (s : State) (ts : List Turn), s.sched = .rst true :: ts :=
  ⟨{ rounding 7#7 with sched := [.rst true, .engine] }, [.engine], rfl⟩

theorem witness_RstHighIgnoresBusAndEngine :
    (∃ s : State, s.rst = true ∧ nextTurn s = .host ∧ s.host = .write 0x0000#16 0xF#4 3#32 :: []) ∧
    (∃ s : State, s.rst = true ∧ nextTurn s = .host ∧ s.host = .read 0x0010#16 :: []) ∧
    (∃ s : State, s.rst = true ∧ nextTurn s = .engine) :=
  ⟨⟨{ State.reset with rst := true, host := [.write 0x0000#16 0xF#4 3#32] }, by decide⟩,
    ⟨{ State.reset with rst := true, host := [.read 0x0010#16] }, by decide⟩, ⟨{ rounding 1#7 with rst := true }, by decide⟩⟩

theorem witness_DecodeOfEncode :
    (Instr.reservedOp47 4#4).wellFormed = true ∧ (Instr.reservedOp8F 15#4).wellFormed = true ∧
    (Instr.stepI 15#4 31#5).wellFormed = true := by decide

theorem witness_EncodeOfDecodedMicroword :
    decode .stepw (bytes [0xFF, 0x07, 0x55]) = .ok (.stepI 15 31, bytes [0x55]) ∧ decode .fsm (bytes [4]) = .ok (.assemble, []) := by
  decide

theorem witness_StepRomEncodesRoundTable : (1 ≤ 1 ∧ 1 ≤ 64) ∧ (1 ≤ 64 ∧ 64 ≤ 64) := by decide

theorem witness_RotlMovesEveryBit :
    (1#5 ≠ 0#5 ∧ 31#5 ≠ 0#5 ∧ 0 < 32 ∧ 31 < 32) ∧
    romEntry stepRom 1#7 = some 0x01C0#16 ∧ decodeMicroword 0x01C0#16 = .ok { fn := .F, k := 0, s := 7 } ∧
    romEntry stepRom 64#7 = some 0x0567#16 ∧ decodeMicroword 0x0567#16 = .ok { fn := .I, k := 9, s := 21 } := by decide

theorem witness_AuxiliaryFunctionsBitByBit : 0 < 32 ∧ 31 < 32 := by decide

theorem witness_StepOperationsResult :
    (∃ n : Fin 64, (stepStart 1#7).i.toNat = n.val + 1) ∧ ∃ n : Fin 64, (stepStart 64#7).i.toNat = n.val + 1 :=
  ⟨⟨0, by decide⟩, ⟨63, by decide⟩⟩

theorem witness_RomIndexOutsideFaults : (stepStart 0#7).i.toNat = 0 ∧ 64 < (stepStart 65#7).i.toNat := by decide

theorem witness_StepOperationsFrame :
    (after (exec (.stepF 0 7) (stepStart 1#7))).isSome = true ∧ (after (exec (.stepG 15 31) (stepStart 64#7))).isSome = true ∧
    (after (exec (.stepH 15 0) (stepStart 33#7))).isSome = true ∧ (after (exec (.stepI 9 21) (stepStart 64#7))).isSome = true := by
  decide

theorem witness_RoundPerformsStepOfTable :
    ((rounding 1#7).romT = constantRom ∧ (rounding 1#7).srom = stepRom ∧ 1 ≤ (rounding 1#7).i.toNat) ∧
    ((rounding 64#7).romT = constantRom ∧ (rounding 64#7).srom = stepRom ∧ (rounding 64#7).i.toNat ≤ 64) :=
  ⟨⟨rfl, rfl, by decide⟩, rfl, rfl, by decide⟩

theorem witness_RoundRunsFetchedMicroword :
    romEntry (rounding 64#7).srom (rounding 64#7).i = some 0x0567#16 ∧ romEntry stepRom (rounding 64#7).i = some 0x0567#16 ∧
    decodeTableWord 16 (0x0567#16).toNat = some (.stepI 9 21) ∧ (after (exec (.stepI 9 21) (rounding 64#7))).isSome = true := by
  decide

theorem witness_ForeignStepRomEntryFaults :
    (∃ (s : State) (n : Fin 64), n.val = 0 ∧ s.i.toNat = n.val + 1 ∧ s.srom[n.val] ≠ stepRom[n.val] ∧ s.rst = false ∧
      nextTurn s = .datapath) ∧
    ∃ (s : State) (n : Fin 64), n.val = 63 ∧ s.i.toNat = n.val + 1 ∧ s.srom[n.val] ≠ stepRom[n.val] ∧ s.rst = false ∧
      nextTurn s = .datapath :=
  ⟨⟨{ rounding 1#7 with srom := stepRom.set 0 0x0800#16, sched := [.datapath] }, 0, rfl, rfl, by decide, rfl, rfl⟩,
    ⟨{ rounding 64#7 with srom := stepRom.set 63 0x01C0#16, sched := [.datapath] }, 63, rfl, rfl, by decide, rfl, rfl⟩⟩

theorem witness_LoadHashDecodesPaddedBlock :
    (hashing abc 0).op = .hash ∧ (hashing abc 0).holdsMessage abc ∧ (hashing abc 0).lenQ.toNat = abc.length ∧
    (hashing abc 0).blk < blockCount abc.length :=
  ⟨rfl, holdsMessage_abc, by decide, by decide⟩

theorem witness_LoadCompressDecodesRawBlock :
    (compressing zeros64).op = .compress ∧ (compressing zeros64).holdsMessage zeros64 ∧ zeros64.length = 64 :=
  ⟨rfl, holdsMessage_zeros64, by decide⟩

theorem witness_LoadFaultsOnUnwrittenByte :
    (∃ s : State, Memory.get s.mem 63 = none ∧ s.op = .compress ∧ 64 ≤ s.msgBytes) ∧
    (∃ s : State, Memory.get s.mem 0 = none ∧ s.op = .hash ∧ 64 * s.blk ≤ 0 ∧ 0 < 64 * s.blk + 64 ∧ 0 < s.lenQ.toNat ∧
      s.lenQ.toNat ≤ s.msgBytes) ∧
    ∃ s : State, Memory.get s.mem 4095 = none ∧ s.op = .hash ∧ 64 * s.blk ≤ 4095 ∧ 4095 < 64 * s.blk + 64 ∧
      4095 < s.lenQ.toNat ∧ s.lenQ.toNat ≤ s.msgBytes :=
  ⟨⟨compressing [], by decide⟩, ⟨{ hashing [] 0 with lenQ := 1#64 }, by decide⟩,
    ⟨{ hashing [] 63 with lenQ := 4096#64 }, by decide⟩⟩

theorem witness_MicroStepsFrame :
    (after (exec .load (hashing abc 0))).isSome = true ∧ (after (exec .round (rounding 64#7))).isSome = true ∧
    (after (exec .fold (folding 1))).isSome = true ∧ (after (exec .assemble assembling)).isSome = true := by decide

theorem witness_PadByteIsSourcePadding :
    (hashing abc 0).holdsMessage abc ∧ (hashing abc 0).lenQ.toNat = abc.length ∧ 63 < (paddedMessage abc).length :=
  ⟨holdsMessage_abc, by decide, by decide⟩

theorem witness_ExtraBlockAboveFiftyFive : 0 % 64 ≤ 55 ∧ 55 % 64 ≤ 55 ∧ 55 < 56 % 64 ∧ 55 < 63 % 64 ∧ 64 % 64 ≤ 55 := by decide

theorem witness_InitLoadsAndPublishesInitialValue : assembling.status.busy = true ∧ State.reset.status.busy = false := by decide

theorem witness_CompressAccepted : State.reset.status.busy = false := by decide

/-- The length bound, met with equality. -/
theorem witness_HashAccepted :
    ∃ s : State, s.status.busy = false ∧ s.lenHi.toNat * 2 ^ 32 + s.lenLo.toNat = s.msgBytes :=
  ⟨{ State.reset with lenLo := 4096#32 }, by decide⟩

theorem witness_ReservedOpcodesRejected :
    (3#16).toNat / 4 = 0 ∧ (0x1#4).getLsbD 0 = true ∧ 4 ≤ (0x00000004#32).toNat % 16 ∧ 4 ≤ (0xFFFFFFFF#32).toNat % 16 := by
  decide

theorem witness_IssueChecksInOrder :
    ((0x10#32).toNat % 16 = 0) ∧ 4 ≤ (0xF4#32).toNat % 16 ∧
    (1 ≤ (0x1#32).toNat % 16 ∧ (0x3#32).toNat % 16 ≤ 3 ∧ assembling.status.busy = true) ∧
    (∃ s : State, s.status.busy = false ∧ s.msgBytes + 1 = s.lenHi.toNat * 2 ^ 32 + s.lenLo.toNat) ∧
    (∃ s : State, s.status.busy = false ∧ s.lenHi.toNat * 2 ^ 32 + s.lenLo.toNat = s.msgBytes) ∧
    State.reset.status.busy = false ∧ (0x1#32).toNat % 16 ≠ 3 ∧ (0x2#32).toNat % 16 ≠ 3 :=
  ⟨by decide, by decide, by decide, ⟨{ State.reset with lenLo := 4097#32 }, by decide⟩,
    ⟨{ State.reset with lenLo := 4096#32 }, by decide⟩, by decide⟩

theorem witness_CommandsFrame :
    (after (exec (decodeCommand 0x1#32) State.reset)).isSome = true ∧ (after (exec (decodeCommand 0x2#32) State.reset)).isSome = true ∧
    (after (exec (decodeCommand 0x3#32) State.reset)).isSome = true ∧ (after (exec (decodeCommand 0x4#32) State.reset)).isSome = true ∧
    assembling.status.busy = true ∧ (after (exec (decodeCommand 0x3#32) assembling)).isSome = true := by decide

theorem witness_StatusWordLayout : 0 < 32 ∧ 31 < 32 := by decide

/-- The clauses of the map at the first and the last address of each range. -/
theorem witness_BusReadFollowsMap :
    (3#16).toNat / 4 * 4 = 0x0000 ∧ (7#16).toNat / 4 * 4 = 0x0004 ∧ (0xB#16).toNat / 4 * 4 = 0x0008 ∧
    (0xF#16).toNat / 4 * 4 = 0x000C ∧ (0x13#16).toNat / 4 * 4 = 0x0010 ∧ (0x17#16).toNat / 4 * 4 = 0x0014 ∧
    (0x1B#16).toNat / 4 * 4 = 0x0018 ∧ (0x1F#16).toNat / 4 * 4 = 0x001C ∧ 0x0020 ≤ (0x20#16).toNat / 4 * 4 ∧
    (0x7FFF#16).toNat / 4 * 4 < 0x8000 ∧
    ((0x8000#16).toNat / 4 * 4 = 0x8000 + 4 * 0 ∧ 4 * 0 < (idleWith zeros64).msgBytes ∧
      Memory.get (idleWith zeros64).mem (4 * 0 + 0) = some 0#8) ∧
    ((0x803F#16).toNat / 4 * 4 = 0x8000 + 4 * 15 ∧ 4 * 15 < (idleWith zeros64).msgBytes ∧
      Memory.get (idleWith zeros64).mem (4 * 15 + 3) = some 0#8) ∧
    0x8000 + State.reset.msgBytes = (0x9003#16).toNat / 4 * 4 ∧ 0x8000 + State.reset.msgBytes ≤ (0xFFFF#16).toNat / 4 * 4 := by
  decide

theorem witness_HostReadHasNoSideEffect :
    ∃ s : State, s.rst = false ∧ nextTurn s = .host ∧ s.host = .read 0x9000#16 :: [] :=
  ⟨{ State.reset with host := [.read 0x9000#16] }, by decide⟩

/-- The first and the last word of the buffer, in both states of BUSY. -/
theorem witness_BufferWriteStoresEnabledLanes :
    (0x8003#16).toNat / 4 * 4 = 0x8000 + 4 * 0 ∧ 4 * 0 < State.reset.msgBytes ∧
    (0x8FFC#16).toNat / 4 * 4 = 0x8000 + 4 * 1023 ∧ 4 * 1023 < State.reset.msgBytes ∧
    State.reset.status.busy = false ∧ assembling.status.busy = true := by decide

theorem witness_LenWriteUpdatesEnabledBytes :
    (0x0009#16).toNat / 4 * 4 = 0x0008 ∧ (0x000F#16).toNat / 4 * 4 = 0x000C ∧ State.reset.status.busy = false ∧
    assembling.status.busy = true := by decide

theorem witness_ReadOnlyAddressesIgnoreWrites :
    (0x0007#16).toNat / 4 * 4 = 0x0004 ∧ 0x0010 ≤ (0x0010#16).toNat / 4 * 4 ∧ (0x7FFF#16).toNat / 4 * 4 < 0x8000 ∧
    0x8000 + State.reset.msgBytes ≤ (0x9000#16).toNat / 4 * 4 := by decide

theorem witness_CtrlWriteIssuesCommand :
    (3#16).toNat / 4 = 0 ∧ (0x1#4).getLsbD 0 = true ∧ (0xE#4).getLsbD 0 = false := by decide

theorem witness_LowAddressBitsIgnored : (0x8000#16).toNat / 4 = (0x8003#16).toNat / 4 ∧ (0#16).toNat / 4 = (3#16).toNat / 4 := by
  decide

theorem witness_BufferWordReadsBack :
    State.reset.status.busy = false ∧ (0x8FFC#16).toNat / 4 * 4 = 0x8000 + 4 * 1023 ∧ 4 * 1023 < State.reset.msgBytes ∧
    (0x8FFF#16).toNat / 4 = (0x8FFC#16).toNat / 4 := by decide

theorem witness_StepRunsHostCommand :
    ∃ s : State, s.rst = false ∧ nextTurn s = .host ∧ s.host = .write 0x0003#16 0x1#4 2#32 :: [] ∧ (0x0003#16).toNat / 4 = 0 ∧
      (0x1#4).getLsbD 0 = true :=
  ⟨{ State.reset with host := [.write 0x0003#16 0x1#4 2#32] }, by decide⟩

theorem witness_StepRunsSequencerMicroStep :
    (assembling.rst = false ∧ nextTurn assembling = .engine ∧ decodeTableWord 8 assembling.fsm.toNat = some .assemble) ∧
    (∃ s : State, s.rst = false ∧ nextTurn s = .engine ∧ s.fsm = 0#3) ∧
    ∃ s : State, s.rst = false ∧ nextTurn s = .engine ∧ 5 ≤ s.fsm.toNat :=
  ⟨by decide, ⟨{ State.reset with sched := [.engine] }, by decide⟩, ⟨{ State.reset with fsm := 5#3 }, by decide⟩⟩

theorem witness_StepRunsDatapathTurn :
    ∃ s : State, s.rst = false ∧ nextTurn s = .datapath ∧ romEntry s.srom s.i = some 0x0567#16 ∧
      romEntry stepRom s.i = some 0x0567#16 ∧ decodeTableWord 16 (0x0567#16).toNat = some (.stepI 9 21) :=
  ⟨{ rounding 64#7 with sched := [.datapath] }, by decide⟩

theorem witness_StepRunsPlacedWord :
    decodeTableWord 32 0xF = some (.reservedOp8F 15) ∧ decodeTableWord 8 4 = some .assemble ∧ decodeTableWord 3 1 = some .load ∧
    (decodeTableWord 16 0x01C0 = some (.stepF 0 7) ∧ BitVec.ofNat 16 0x01C0 ∈ stepTable) ∧
    (decodeTableWord 16 0x0567 = some (.stepI 9 21) ∧ BitVec.ofNat 16 0x0567 ∈ stepTable) ∧
    (decodeTableWord 16 0 = some (.stepF 0 0) ∧ BitVec.ofNat 16 0 ∉ stepTable) ∧
    (decodeTableWord 16 0x07C0 = some (.stepF 0 31) ∧ BitVec.ofNat 16 0x07C0 ∉ stepTable) := by decide

theorem witness_StepKeepsInvariant :
    (hashing abc 0).Inv ∧ (after (step (hashing abc 0))).isSome = true ∧ (rounding 64#7).Inv ∧
    (after (step (rounding 64#7))).isSome = true :=
  ⟨inv_of_check (by decide +kernel), by decide, inv_of_check (by decide +kernel), by decide⟩

theorem witness_OnlyUnwrittenBytesFault :
    ∃ s : State, s.Inv ∧ nextTurn s = .engine ∧ step s = .fault .unwrittenByte :=
  ⟨compressing [], inv_of_check (by decide +kernel), by decide, rfl⟩

theorem witness_SequencerFollowsTransitionGraph :
    ((rounding 1#7).Inv ∧ (rounding 1#7).fsm = 2#3 ∧ (after (step (rounding 1#7))).isSome = true) ∧
    ((rounding 63#7).Inv ∧ (rounding 63#7).i.toNat < 64 ∧ (after (step (rounding 63#7))).isSome = true) ∧
    ((rounding 64#7).Inv ∧ (rounding 64#7).i.toNat = 64 ∧ nextTurn (rounding 64#7) = .engine) ∧
    ((hashing abc 0).Inv ∧ (hashing abc 0).fsm = 1#3 ∧ (after (step (hashing abc 0))).isSome = true) ∧
    ((folding 0).Inv ∧ (folding 0).fsm = 3#3 ∧ (folding 0).blk + 1 < (folding 0).nblk ∧ (after (step (folding 0))).isSome = true) ∧
    ((folding 1).Inv ∧ (folding 1).blk + 1 = (folding 1).nblk ∧ (after (step (folding 1))).isSome = true) ∧
    (assembling.Inv ∧ assembling.fsm = 4#3 ∧ (after (step assembling)).isSome = true) ∧
    ((idleWith abc).Inv ∧ nextTurn (idleWith abc) = .host ∧ (after (step (idleWith abc))).isSome = true) ∧
    ∃ s : State, s.Inv ∧ nextTurn s = .rst true ∧ (after (step s)).isSome = true :=
  ⟨⟨inv_of_check (by decide +kernel), by decide⟩, ⟨inv_of_check (by decide +kernel), by decide⟩,
    ⟨inv_of_check (by decide +kernel), by decide⟩, ⟨inv_of_check (by decide +kernel), by decide⟩,
    ⟨inv_of_check (by decide +kernel), by decide⟩, ⟨inv_of_check (by decide +kernel), by decide⟩,
    ⟨inv_of_check (by decide +kernel), by decide⟩, ⟨inv_of_check (by decide +kernel), by decide⟩,
    ⟨{ rounding 9#7 with sched := [.rst true] }, inv_of_check (by decide +kernel), rfl, rfl⟩⟩

/-- The chaining registers change at FOLD, at an accepted INIT after a command, and at reset. -/
theorem witness_ChainWrittenInThreePlaces :
    (after (step { folding 1 with work := uniformStart 1#32 0#32 1#7 |>.work })).map (·.chain.a) = some 0x67452302#32 ∧
    (after (step { State.reset with chain := Quad.zero, host := [.write 0x0000#16 0xF#4 1#32] })).map (·.chain.a)
      = some 0x67452301#32 ∧
    (∃ t, step { State.reset with chain := Quad.zero, rst := true } = .next t ∧ t.chain.a = 0x67452301#32) :=
  ⟨by decide, by decide, _, rfl, rfl⟩

/-- STATUS changes at an acceptance, at a rejection, at ASSEMBLE and at reset. -/
theorem witness_StatusWrittenInThreePlaces :
    (after (step { State.reset with host := [.write 0x0000#16 0xF#4 1#32] })).map (fun t => statusWord t.status) = some 0x01#32 ∧
    (after (step { State.reset with host := [.write 0x0000#16 0xF#4 7#32] })).map (fun t => statusWord t.status) = some 0x14#32 ∧
    (after (step assembling)).map (fun t => statusWord t.status) = some 0x02#32 ∧
    (∃ t, step { assembling with sched := [.rst true] } = .next t ∧ statusWord t.status = 0#32) :=
  ⟨by decide, by decide, by decide, _, rfl, rfl⟩

theorem witness_DigestChangesOnlyAtAssemble :
    (after (step assembling)).map (·.digest.a) = some 0x67452301#32 ∧ assembling.digest.a = 0#32 ∧
    (∃ t, step { State.reset with digest := initialValue, rst := true } = .next t ∧ t.digest.a = 0#32) :=
  ⟨by decide, rfl, _, rfl, rfl⟩

theorem witness_MessageFixedWhileBusy :
    (after (step { State.reset with host := [.write 0x8000#16 0x1#4 0x61#32] })).map (·.mem) = some [(0, 0x61#8)] ∧
    (after (step { State.reset with host := [.write 0x0008#16 0xF#4 3#32] })).map (·.lenLo) = some 3#32 ∧
    (∃ t, step { idleWith abc with rst := true } = .next t ∧ t.mem = [] ∧ t.lenLo = 0#32) :=
  ⟨by decide, by decide, _, rfl, rfl, rfl⟩

theorem witness_HostTurnWhileBusyLeavesDatapath :
    ∃ s : State, s.rst = false ∧ s.status.busy = true ∧ nextTurn s = .host ∧ s.host = [.write 0x8000#16 0xF#4 0xFF#32] :=
  ⟨{ hashing abc 0 with sched := [.host], host := [.write 0x8000#16 0xF#4 0xFF#32] }, by decide⟩

/-- Two states that differ in ERR, ERRCODE, LEN and the host's transactions. -/
theorem witness_EngineStepIgnoresHostState :
    ∃ s s' t : State, sameDatapath s s' ∧ s.status.err ≠ s'.status.err ∧ s.lenHi ≠ s'.lenHi ∧ engineTurn s = .next t :=
  ⟨hashing [] 0,
    { hashing [] 0 with status := statusOf true false true .busy, lenHi := 9#32, host := [.poll] }, _,
    ⟨rfl, rfl, rfl, rfl, rfl, rfl, rfl, rfl, rfl, rfl, rfl, rfl, rfl, rfl, rfl, rfl⟩, by decide, by decide, rfl⟩

theorem witness_CompressRunComputesCompressionFunction :
    (compressing zeros64).Inv ∧ (compressing zeros64).undisturbed ∧ (compressing zeros64).fsm = 1#3 ∧
    (compressing zeros64).op = .compress ∧ (compressing zeros64).blk = 0 ∧ (compressing zeros64).holdsMessage zeros64 ∧
    zeros64.length = 64 :=
  ⟨inv_of_check (by decide +kernel), ⟨rfl, rfl, rfl⟩, rfl, rfl, rfl, holdsMessage_zeros64, by decide⟩

/-- The schedule of the interleaving witness: host turns before, between and after the engine's. -/
def someTurns : List Turn := .host :: List.replicate 40 .engine ++ [.host, .host] ++ List.replicate 26 .engine ++ [.host]

theorem witness_HashPublishesDigestInEveryInterleaving :
    ∃ s : State, s.Inv ∧ s.rst = false ∧ s.fsm = 1#3 ∧ s.op = .hash ∧ s.blk = 0 ∧ s.chain = initialValue ∧
      s.lenQ.toNat = abc.length ∧ s.holdsMessage abc ∧ s.sched = someTurns ++ .engine :: [] ∧
      (∀ u ∈ someTurns, u.isAgent = true) ∧ someTurns.count .engine = 66 * blockCount abc.length :=
  ⟨{ hashing abc 0 with sched := someTurns ++ .engine :: [], host := [.write 0x0000#16 0xF#4 1#32, .poll] },
    inv_of_check (by decide +kernel), rfl, rfl, rfl, rfl, rfl, by decide, holdsMessage_abc, rfl, by decide, by decide⟩

theorem witness_HashProgramReadsDigest :
    ∃ s : State, s.Inv ∧ s.rst = false ∧ s.sched = [] ∧ s.fsm = 0#3 ∧ s.holdsMessage abc ∧
      s.lenHi.toNat * 2 ^ 32 + s.lenLo.toNat = abc.length ∧ s.host = progHash ++ progPoll ++ progGetdigest :=
  ⟨{ idleWith abc with host := progHash ++ progPoll ++ progGetdigest }, inv_of_check (by decide +kernel), rfl, rfl, rfl,
    holdsMessage_abc, by decide, rfl⟩

theorem witness_DigestBytesInRegisterOrder : 0 < 4 ∧ 3 < 4 := by decide

end Sys2Proof.Tests
end

section
/-! The invariant is kept by every step: one lemma for each thing a step can do (`step_cases`), then their assembly.
A clause that a case does not touch is taken over from the invariant before it. -/

namespace Sys2Proof.Machine

/-! ## What the invariant says of the sequencer's code -/

/-- LOAD, ROUND and FOLD have codes of the sequencer and are not IDLE (R111). -/
theorem inBlock_code {s : State} (h : s.inBlock) : s.fsm.toNat ≤ 4 ∧ s.fsm ≠ Fsm.idle := by
  rcases h with h | h | h <;> simp [h]

/-- With BUSY = 0 the sequencer is in IDLE (R563). -/
theorem inv_fsm_of_not_busy {s : State} (hs : s.Inv) (hb : s.status.busy = false) : s.fsm = Fsm.idle := by
  by_contra hf
  have := hs.busyMirrors.mpr hf
  simp [hb] at this

/-- With BUSY = 0 no block is being processed. -/
theorem inv_not_inBlock_of_not_busy {s : State} (hs : s.Inv) (hb : s.status.busy = false) : ¬ s.inBlock :=
  fun hblock => (inBlock_code hblock).2 (inv_fsm_of_not_busy hs hb)

/-- Outside IDLE the engine is BUSY and not DONE. -/
theorem inv_busy_of_not_idle {s : State} (hs : s.Inv) (hf : s.fsm ≠ Fsm.idle) :
    s.status.busy = true ∧ s.status.done = false :=
  have hb := hs.busyMirrors.mpr hf
  ⟨hb, hs.busyNotDone hb⟩

/-! ## Reset -/

/-- The reset action meets the invariant from every state with a legal capacity and the ROMs, whatever else it holds. -/
theorem inv_resetAction {u : State} (hcap : Config.legalCapacity u.msgBytes) (hT : u.romT = constantRom)
    (hS : u.srom = stepRom) : (resetAction u).Inv where
  capacity := hcap
  bufferSorted := .nil
  bufferBounded := by simp
  constants := hT
  steps := hS
  fsmCode := by simp
  busyMirrors := by simp
  busyNotDone := by simp
  errHasCode := by simp
  roundIndex := by simp
  blockIndex := by simp [State.inBlock]
  blockCommand := by simp [State.inBlock]
  compressBlocks := by simp [State.inBlock]
  hashLength := by simp [State.inBlock]
  doneDigest := by simp

/-! ## Commands -/

/-- A rejection records a code other than 0 and leaves the rest (R603). -/
theorem inv_reject {s : State} {code : ErrCode} (hs : s.Inv) (hc : code ≠ .none) : (reject code s).Inv :=
  { hs with errHasCode := by simp [hc] }

/-- An acceptance goes to LOAD or ASSEMBLE, BUSY and without an error (R541), and keeps the invariant when what it sets up
for LOAD is a block of its command. -/
theorem inv_accept {s : State} (hs : s.Inv) {c : Cmd} {lenQ : BitVec 64} {chain : Quad} {blk nblk : Nat} {f : BitVec 3}
    (hf : f = Fsm.load ∨ f = Fsm.assemble)
    (hblk : f = Fsm.load → blk < nblk) (hcmd : f = Fsm.load → c = .compress ∨ c = .hash)
    (hcompress : c = .compress → nblk = 1)
    (hhash : c = .hash → lenQ = lengthOperand s ∧ lenQ.toNat ≤ s.msgBytes ∧ nblk = blockCount lenQ.toNat) :
    State.Inv { accept c s with lenQ := lenQ, chain := chain, blk := blk, nblk := nblk, fsm := f } :=
  have hload : State.inBlock { s with fsm := f } → f = Fsm.load := by rcases hf with rfl | rfl <;> simp [State.inBlock]
  { hs with
    fsmCode := by rcases hf with rfl | rfl <;> simp
    busyMirrors := by rcases hf with rfl | rfl <;> simp
    busyNotDone := by simp
    errHasCode := by simp
    roundIndex := by rcases hf with rfl | rfl <;> simp
    blockIndex := fun hblock => hblk (hload hblock)
    blockCommand := fun hblock => hcmd (hload hblock)
    compressBlocks := fun _ => hcompress
    hashLength := fun _ => hhash
    doneDigest := by simp }

/-- Issuing a CTRL word keeps the invariant. -/
theorem inv_command {s t : State} {w : Word} (hs : s.Inv) (h : exec (decodeCommand w) s = .next t) : t.Inv := by
  rcases command_cases h with rfl | ⟨code, hc, rfl⟩ | ⟨-, rfl⟩ | ⟨-, rfl⟩ | ⟨-, hL, rfl⟩
  · exact hs
  · exact inv_reject hs hc
  · exact inv_accept hs (.inr rfl) (by simp) (by simp) (by simp) (by simp)
  · exact inv_accept hs (.inl rfl) (by simp) (by simp) (by simp) (by simp)
  · exact inv_accept hs (.inl rfl) (by simp [blockCount]) (by simp) (by simp) fun _ => ⟨rfl, hL, rfl⟩

/-! ## The host's stores -/

/-- With BUSY = 0 the LEN registers are free: no running HASH has latched them (R115, R123). -/
theorem inv_write_len {s : State} (hs : s.Inv) (hb : s.status.busy = false) (lo hi : Word) :
    State.Inv { s with lenLo := lo, lenHi := hi } :=
  have hidle := inv_not_inBlock_of_not_busy hs hb
  { hs with hashLength := fun hblock => absurd hblock hidle }

/-- Writing lanes of an aligned word of the buffer keeps its list canonical and inside the capacity, a multiple of 4. -/
theorem inv_write_buffer {s : State} (hs : s.Inv) {off : Nat} (halign : off % 4 = 0) (hoff : off < s.msgBytes)
    (be : BitVec 4) (wdata : Word) : State.Inv { s with mem := writeLanes be wdata off s.mem } :=
  { hs with
    bufferSorted := memory_wf_writeLanes hs.bufferSorted be wdata off
    bufferBounded := by
      intro c hc
      obtain ⟨hcap, -, -⟩ := hs.capacity
      rcases memory_mem_writeLanes hc with hnew | hold
      · show c.1 < s.msgBytes
        omega
      · exact hs.bufferBounded c hold }

/-- The host's turn keeps the invariant. -/
theorem inv_hostTurn {s t : State} (hs : s.Inv) (h : hostTurn s = .next t) : t.Inv := by
  rcases hostTurn_cases h with ⟨rest, w, hx⟩ | ⟨hb, rest, v, rfl⟩ | ⟨hb, rest, v, rfl⟩ |
    ⟨-, rest, be, wdata, off, halign, hoff, rfl⟩ | ⟨rest, reads, draws, rfl⟩
  · exact inv_command (s := { s with host := rest }) { hs with } hx
  · exact { inv_write_len hs hb v s.lenHi with }
  · exact { inv_write_len hs hb s.lenLo v with }
  · exact { inv_write_buffer hs halign hoff be wdata with }
  · exact { hs with }

/-! ## The engine's micro-steps -/

/-- Going from one code to another inside a block keeps every clause about the block. -/
theorem inv_fsm_within_block {s : State} (hs : s.Inv) (hblock : s.inBlock) {f : BitVec 3}
    (hf : State.inBlock { s with fsm := f }) (hi : f = Fsm.round → 1 ≤ s.i.toNat ∧ s.i.toNat ≤ 64) :
    State.Inv { s with fsm := f } :=
  have hbusy := hs.busyMirrors.mpr (inBlock_code hblock).2
  have ⟨hcode, hrun⟩ := inBlock_code hf
  { hs with
    fsmCode := hcode
    busyMirrors := iff_of_true hbusy hrun
    roundIndex := hi
    blockIndex := fun _ => hs.blockIndex hblock
    blockCommand := fun _ => hs.blockCommand hblock
    compressBlocks := fun _ => hs.compressBlocks hblock
    hashLength := fun _ => hs.hashLength hblock }

/-- LOAD goes on to ROUND of the same block with step index 1 (R440). -/
theorem inv_execLoad {s t : State} (hs : s.Inv) (hf : s.fsm = Fsm.load) (h : execLoad s = .next t) : t.Inv := by
  obtain ⟨x, -, rfl⟩ := execLoad_next h
  have hloaded : State.Inv { s with x := x, work := s.chain, i := 1#7 } := { hs with roundIndex := by simp }
  exact inv_fsm_within_block hloaded (.inl hf) (.inr (.inl rfl)) (by simp)

/-- ROUND stays in the block: at step index 64 it goes on to FOLD, below it to the next index (R474, R113). -/
theorem inv_execRound {s t : State} (hs : s.Inv) (hf : s.fsm = Fsm.round) (h : execRound s = .next t) : t.Inv := by
  obtain ⟨w, ⟨-, rfl⟩ | ⟨hlt, rfl, hnext⟩⟩ := execRound_cases h (hs.roundIndex hf)
  · have hstep : State.Inv { s with work := w } := { hs with }
    exact inv_fsm_within_block hstep (.inr (.inl hf)) (.inr (.inr rfl)) (by simp)
  · have hi : 1 ≤ (s.i + 1#7).toNat ∧ (s.i + 1#7).toNat ≤ 64 := by omega
    exact { hs with roundIndex := fun _ => hi }

/-- FOLD of a block before the last goes on to LOAD of the next one (R490). -/
theorem inv_fold_next_block {s : State} (hs : s.Inv) (hf : s.fsm = Fsm.fold) (hmore : s.blk + 1 < s.nblk) :
    State.Inv { s with chain := addQuad s.chain s.work, blk := s.blk + 1, fsm := Fsm.load } :=
  have ⟨_, hdone⟩ := inv_busy_of_not_idle hs (by simp [hf])
  have hfolded : State.Inv { s with chain := addQuad s.chain s.work, blk := s.blk + 1 } :=
    { hs with
      blockIndex := fun _ => hmore
      doneDigest := by simp [hdone] }
  inv_fsm_within_block hfolded (.inr (.inr hf)) (.inl rfl) (by simp)

/-- FOLD of the last block goes on to ASSEMBLE (R490). -/
theorem inv_fold_last_block {s : State} (hs : s.Inv) (hf : s.fsm = Fsm.fold) :
    State.Inv { s with chain := addQuad s.chain s.work, blk := s.blk + 1, fsm := Fsm.assemble } :=
  have ⟨hbusy, hdone⟩ := inv_busy_of_not_idle hs (by simp [hf])
  { hs with
    fsmCode := by simp
    busyMirrors := by simp [hbusy]
    roundIndex := by simp
    blockIndex := by simp [State.inBlock]
    blockCommand := by simp [State.inBlock]
    compressBlocks := by simp [State.inBlock]
    hashLength := by simp [State.inBlock]
    doneDigest := by simp [hdone] }

/-- FOLD keeps the invariant, whichever way it goes. -/
theorem inv_execFold {s t : State} (hs : s.Inv) (hf : s.fsm = Fsm.fold) (h : execFold s = .next t) : t.Inv := by
  obtain rfl := Host.Outcome.next.inj h
  split
  · exact inv_fold_next_block hs hf ‹_›
  · exact inv_fold_last_block hs hf

/-- ASSEMBLE publishes `A..D` and returns to IDLE (R521). -/
theorem inv_execAssemble {s t : State} (hs : s.Inv) (h : execAssemble s = .next t) : t.Inv := by
  obtain rfl := Host.Outcome.next.inj h
  exact { hs with
    fsmCode := by simp
    busyMirrors := by simp
    busyNotDone := by simp
    roundIndex := by simp
    blockIndex := by simp [State.inBlock]
    blockCommand := by simp [State.inBlock]
    compressBlocks := by simp [State.inBlock]
    hashLength := by simp [State.inBlock]
    doneDigest := fun _ => rfl }

/-- The engine's turn keeps the invariant. -/
theorem inv_engineTurn {s t : State} (hs : s.Inv) (h : engineTurn s = .next t) : t.Inv := by
  rcases engineTurn_cases h with ⟨-, rfl⟩ | ⟨hf, hx⟩ | ⟨hf, hx⟩ | ⟨hf, hx⟩ | ⟨-, hx⟩
  · exact hs
  · exact inv_execLoad hs hf hx
  · exact inv_execRound hs hf hx
  · exact inv_execFold hs hf hx
  · exact inv_execAssemble hs hx

/-! ## Every step -/

/-- Settles O46, by the cases of a step: reset, the release of reset, and the turns of the host, the engine and the
datapath alone. -/
theorem stepKeepsInvariant : Obligations.StepKeepsInvariant := by
  intro s t hs h
  have hpop : (popTurn s).Inv := { hs with }
  rcases step_cases h with ⟨u, rfl, hT, hS, hcap, -⟩ | ⟨-, rfl⟩ | ⟨-, -, hx⟩ | ⟨-, -, hx⟩ | ⟨-, -, hx⟩
  · exact inv_resetAction (hcap ▸ hs.capacity) (hT.trans hs.constants) (hS.trans hs.steps)
  · exact { hpop with }
  · exact inv_hostTurn hpop hx
  · exact inv_engineTurn hpop hx
  · obtain ⟨w, rfl⟩ := datapathTurn_cases hx
    exact { hpop with }

end Sys2Proof.Machine
end

section
/-! What the host's registers hold and what writes them: a STATUS read bit by bit, writes of CTRL and LEN, and the places
that write the chaining registers and STATUS. Each of the last two is one lemma per agent's turn, then `step_cases`. -/

namespace Sys2Proof.Machine

/-! ## A STATUS read -/

/-- The bits of a STATUS read, by the width of each field (R121). -/
theorem statusWord_getLsbD (st : Status) (n : Nat) :
    (statusWord st).getLsbD n =
      if n = 0 then st.busy else if n = 1 then st.done else if n = 2 then st.err
      else if 4 ≤ n ∧ n < 8 then (errCodeBits st.errcode).getLsbD (n - 4) else false := by
  have hfields : n = 0 ∨ n = 1 ∨ n = 2 ∨ n = 3 ∨ 4 ≤ n := by omega
  simp only [statusWord, BitVec.getLsbD_append]
  rcases hfields with rfl | rfl | rfl | rfl | hcode
  · simp
  · simp
  · simp
  · simp
  · obtain ⟨k, rfl⟩ := Nat.exists_eq_add_of_le' hcode
    by_cases hk : k < 4
    · simp [hk, show k + 4 < 8 by omega]
    · simp [hk, show ¬ k + 4 < 8 by omega]

/-- Settles O33, from the layout by field widths and the codes of R601. -/
theorem statusWordLayout : Obligations.StatusWordLayout := by
  intro st n _
  rw [statusWord_getLsbD]
  cases st.errcode <;> rfl

/-! ## Writes of CTRL and LEN -/

/-- Address 0x0008 is LEN_LO. -/
@[simp] theorem regionOf_lenLo (n : Nat) : regionOf n 0x0008 = .lenLo := rfl

/-- Address 0x000C is LEN_HI. -/
@[simp] theorem regionOf_lenHi (n : Nat) : regionOf n 0x000C = .lenHi := rfl

/-- A write of CTRL issues the command of its data, if byte enable 0 is set (R120, R540). -/
theorem busWrite_ctrl {s : State} {addr : BitVec 16} (h : addressed s addr = .ctrl) (be : BitVec 4) (wdata : Word) :
    busWrite addr be wdata s = if be.getLsbD 0 then exec (decodeCommand wdata) s else .next s :=
  if_pos h

/-- A write of any other region stores into it. -/
theorem busWrite_store {s : State} {addr : BitVec 16} {r : Region} (h : addressed s addr = r) (hctrl : r ≠ .ctrl)
    (be : BitVec 4) (wdata : Word) : busWrite addr be wdata s = .next (storeWrite r be wdata s) :=
  h ▸ if_neg (h ▸ hctrl)

/-- While BUSY a store is lost, whatever its region (R123, R207). -/
@[simp] theorem storeWrite_busy {s : State} (hb : s.status.busy = true) (r : Region) (be : BitVec 4) (wdata : Word) :
    storeWrite r be wdata s = s := by
  simp [storeWrite, hb]

/-- With BUSY = 0 a store into LEN_LO merges the enabled lanes. -/
@[simp] theorem storeWrite_lenLo {s : State} (hb : s.status.busy = false) (be : BitVec 4) (wdata : Word) :
    storeWrite .lenLo be wdata s = { s with lenLo := mergeLanes be s.lenLo wdata } := by
  simp [storeWrite, hb]

/-- With BUSY = 0 a store into LEN_HI merges the enabled lanes. -/
@[simp] theorem storeWrite_lenHi {s : State} (hb : s.status.busy = false) (be : BitVec 4) (wdata : Word) :
    storeWrite .lenHi be wdata s = { s with lenHi := mergeLanes be s.lenHi wdata } := by
  simp [storeWrite, hb]

/-- Settles O39, by the two cases of a write of CTRL. -/
theorem ctrlWriteIssuesCommand : Obligations.CtrlWriteIssuesCommand := by
  intro s addr be wdata haddr
  have hctrl : addressed s addr = .ctrl := by simp [addressed_eq, haddr]
  rw [busWrite_ctrl hctrl]
  exact ⟨fun hbe => if_pos hbe, fun hbe => if_neg (Bool.eq_false_iff.mp hbe)⟩

/-- Settles O37: each address is its register's region, and the value stored is the lane merge. -/
theorem lenWriteUpdatesEnabledBytes : Obligations.LenWriteUpdatesEnabledBytes := by
  intro s addr be wdata haddr
  rcases haddr with ha | ha
  · have hw := busWrite_store (s := s) (addr := addr) (r := .lenLo) (by simp [addressed_eq, ha]) (by simp) be wdata
    refine ⟨fun hb => by simp [hw, hb], fun hb => ⟨mergeLanes be s.lenLo wdata, by simp [hw, hb, ha], fun j hj => ?_⟩⟩
    simp [byteOf_mergeLanes be s.lenLo wdata hj, ha]
  · have hw := busWrite_store (s := s) (addr := addr) (r := .lenHi) (by simp [addressed_eq, ha]) (by simp) be wdata
    refine ⟨fun hb => by simp [hw, hb], fun hb => ⟨mergeLanes be s.lenHi wdata, by simp [hw, hb, ha], fun j hj => ?_⟩⟩
    simp [byteOf_mergeLanes be s.lenHi wdata hj, ha]

/-! ## What ROUND leaves unchanged, at every step index -/

@[simp] theorem advanceRound_chain (s : State) : (advanceRound s).chain = s.chain := by
  unfold advanceRound
  split <;> rfl

@[simp] theorem advanceRound_status (s : State) : (advanceRound s).status = s.status := by
  unfold advanceRound
  split <;> rfl

/-! ## The places that write the chaining registers (R103) -/

/-- Issuing a CTRL word writes the chaining registers only by the IV load of an accepted INIT or HASH. -/
theorem command_chain {s t : State} {w : Word} (h : exec (decodeCommand w) s = .next t) :
    t.chain = s.chain ∨
    (s.status.busy = false ∧ t.status.busy = true ∧ (t.op = .init ∨ t.op = .hash) ∧ t.chain = initialValue) := by
  rcases command_cases h with rfl | ⟨code, -, rfl⟩ | ⟨hb, rfl⟩ | ⟨-, rfl⟩ | ⟨hb, -, rfl⟩
  · exact .inl rfl
  · exact .inl rfl
  · exact .inr ⟨hb, rfl, .inl rfl, rfl⟩
  · exact .inl rfl
  · exact .inr ⟨hb, rfl, .inr rfl, rfl⟩

/-- The host's turn writes the chaining registers only by issuing a command. -/
theorem hostTurn_chain {s t : State} (h : hostTurn s = .next t) :
    t.chain = s.chain ∨
    (s.status.busy = false ∧ t.status.busy = true ∧ (t.op = .init ∨ t.op = .hash) ∧ t.chain = initialValue) := by
  rcases hostTurn_cases h with ⟨rest, w, hx⟩ | ⟨-, rest, v, rfl⟩ | ⟨-, rest, v, rfl⟩ |
    ⟨-, rest, be, wdata, off, -, -, rfl⟩ | ⟨rest, reads, draws, rfl⟩
  · exact command_chain (s := { s with host := rest }) hx
  all_goals exact .inl rfl

/-- The engine's turn writes the chaining registers only by FOLD. -/
theorem engineTurn_chain {s t : State} (h : engineTurn s = .next t) :
    t.chain = s.chain ∨ (s.fsm = Fsm.fold ∧ t.chain = addQuad s.chain s.work) := by
  rcases engineTurn_cases h with ⟨-, rfl⟩ | ⟨-, hx⟩ | ⟨-, hx⟩ | ⟨hf, hx⟩ | ⟨-, hx⟩
  · exact .inl rfl
  · obtain ⟨x, -, rfl⟩ := execLoad_next hx
    exact .inl rfl
  · obtain ⟨u, m, ti, -, -, -, -, rfl⟩ := execRound_next hx
    exact .inl (advanceRound_chain _)
  · obtain rfl := Host.Outcome.next.inj hx
    exact .inr ⟨hf, rfl⟩
  · obtain rfl := Host.Outcome.next.inj hx
    exact .inl rfl

/-- Settles O50, by the cases of a step. -/
theorem chainWrittenInThreePlaces : Obligations.ChainWrittenInThreePlaces := by
  intro s t h hne
  rcases step_cases h with ⟨u, rfl, -, -, -, hr⟩ | ⟨-, rfl⟩ | ⟨-, hn, hx⟩ | ⟨-, hn, hx⟩ | ⟨-, -, hx⟩
  · exact .inr (.inr ⟨hr, resetAction_chain u⟩)
  · exact absurd rfl hne
  · exact .inr (.inl ⟨hn, (hostTurn_chain hx).resolve_left hne⟩)
  · exact .inl ⟨hn, (engineTurn_chain hx).resolve_left hne⟩
  · obtain ⟨w, rfl⟩ := datapathTurn_cases hx
    exact absurd rfl hne

/-! ## The places that write STATUS (R122) -/

/-- Issuing a CTRL word writes STATUS only as an acceptance or as a rejection with a code. -/
theorem command_status {s t : State} {w : Word} (h : exec (decodeCommand w) s = .next t) :
    t.status = s.status ∨ (s.status.busy = false ∧ t.status = statusAccepted) ∨
    ∃ code, code ≠ .none ∧ t.status = statusRejected code s.status := by
  rcases command_cases h with rfl | ⟨code, hc, rfl⟩ | ⟨hb, rfl⟩ | ⟨hb, rfl⟩ | ⟨hb, -, rfl⟩
  · exact .inl rfl
  · exact .inr (.inr ⟨code, hc, rfl⟩)
  all_goals exact .inr (.inl ⟨hb, rfl⟩)

/-- The host's turn writes STATUS only by issuing a command. -/
theorem hostTurn_status {s t : State} (h : hostTurn s = .next t) :
    t.status = s.status ∨ (s.status.busy = false ∧ t.status = statusAccepted) ∨
    ∃ code, code ≠ .none ∧ t.status = statusRejected code s.status := by
  rcases hostTurn_cases h with ⟨rest, w, hx⟩ | ⟨-, rest, v, rfl⟩ | ⟨-, rest, v, rfl⟩ |
    ⟨-, rest, be, wdata, off, -, -, rfl⟩ | ⟨rest, reads, draws, rfl⟩
  · exact command_status (s := { s with host := rest }) hx
  all_goals exact .inl rfl

/-- The engine's turn writes STATUS only by ASSEMBLE. -/
theorem engineTurn_status {s t : State} (h : engineTurn s = .next t) :
    t.status = s.status ∨ (s.fsm = Fsm.assemble ∧ t.status = statusCompleted s.status) := by
  rcases engineTurn_cases h with ⟨-, rfl⟩ | ⟨-, hx⟩ | ⟨-, hx⟩ | ⟨-, hx⟩ | ⟨hf, hx⟩
  · exact .inl rfl
  · obtain ⟨x, -, rfl⟩ := execLoad_next hx
    exact .inl rfl
  · obtain ⟨u, m, ti, -, -, -, -, rfl⟩ := execRound_next hx
    exact .inl (advanceRound_status _)
  · obtain rfl := Host.Outcome.next.inj hx
    exact .inl rfl
  · obtain rfl := Host.Outcome.next.inj hx
    exact .inr ⟨hf, rfl⟩

/-- Settles O51, by the cases of a step. -/
theorem statusWrittenInThreePlaces : Obligations.StatusWrittenInThreePlaces := by
  intro s t h hne
  rcases step_cases h with ⟨u, rfl, -, -, -, hr⟩ | ⟨-, rfl⟩ | ⟨-, hn, hx⟩ | ⟨-, hn, hx⟩ | ⟨-, -, hx⟩
  · exact .inr (.inr (.inr ⟨hr, resetAction_status u⟩))
  · exact absurd rfl hne
  · rcases (hostTurn_status hx).resolve_left hne with haccepted | hrejected
    · exact .inl ⟨hn, haccepted⟩
    · exact .inr (.inl ⟨hn, hrejected⟩)
  · exact .inr (.inr (.inl ⟨hn, (engineTurn_status hx).resolve_left hne⟩))
  · obtain ⟨w, rfl⟩ := datapathTurn_cases hx
    exact absurd rfl hne

end Sys2Proof.Machine
end

section
/-! The host's transactions on the address map: what a read returns, what a write stores or ignores, and that neither
looks at the low two address bits. Each starts from the region of the address. -/

namespace Sys2Proof.Machine

/-! ## The region of an address -/

/-- Address 0x0004 is STATUS. -/
@[simp] theorem regionOf_status (n : Nat) : regionOf n 0x0004 = .status := rfl

/-- The word at `0x8000 + 4w` is the buffer word at offset `4w`, when it is inside the buffer. -/
theorem addressed_msgbuf {s : State} {addr : BitVec 16} {w : Nat} (ha : addr.toNat / 4 * 4 = 0x8000 + 4 * w)
    (hw : 4 * w < s.msgBytes) : addressed s addr = .msgbuf (4 * w) := by
  have hlt := addr.isLt
  rw [addressed_eq]
  exact regionOf_msgbuf ha (by omega) hw

/-- Two addresses in one aligned word have one region (R208). -/
theorem addressed_congr (s : State) {addr addr' : BitVec 16} (h : addr.toNat / 4 = addr'.toNat / 4) :
    addressed s addr = addressed s addr' := by
  rw [addressed_eq, addressed_eq, h]

/-! ## What a read returns in each region -/

theorem busReadWord_ctrl {s : State} {addr : BitVec 16} (h : addressed s addr = .ctrl) : busReadWord s addr = 0#32 := by
  simp [busReadWord, h]

theorem busReadWord_status {s : State} {addr : BitVec 16} (h : addressed s addr = .status) :
    busReadWord s addr = statusWord s.status := by
  simp [busReadWord, h]

theorem busReadWord_lenLo {s : State} {addr : BitVec 16} (h : addressed s addr = .lenLo) :
    busReadWord s addr = s.lenLo := by
  simp [busReadWord, h]

theorem busReadWord_lenHi {s : State} {addr : BitVec 16} (h : addressed s addr = .lenHi) :
    busReadWord s addr = s.lenHi := by
  simp [busReadWord, h]

theorem busReadWord_reserved {s : State} {addr : BitVec 16} (h : addressed s addr = .reserved) :
    busReadWord s addr = 0#32 := by
  simp [busReadWord, h]

theorem busReadWord_unmapped {s : State} {addr : BitVec 16} (h : addressed s addr = .unmapped) :
    busReadWord s addr = 0#32 := by
  simp [busReadWord, h]

/-- A read of DIGEST`n`, at address `0x0010 + 4n`. -/
theorem busReadWord_digest {s : State} {addr : BitVec 16} (n : Nat) (hn : n < 4)
    (ha : addr.toNat / 4 * 4 = 0x0010 + 4 * n) : busReadWord s addr = digestWord s.digest n := by
  have hregion : addressed s addr = .digest n := by
    rw [addressed_eq, ha, regionOf_digest (by omega) (by omega)]
    congr
    omega
  simp [busReadWord, hregion]

/-- A written byte reads as it was written. -/
theorem hostByte_written {m : Memory} {off : Nat} {b : Byte} (h : Memory.get m off = some b) (draw : Nat) :
    hostByte m off draw = b := by
  simp [hostByte, h]

/-- A written byte of a buffer word stands in the lane of its offset (R204). -/
theorem byteOf_busReadWord_msgbuf {s : State} {addr : BitVec 16} {off j : Nat} {b : Byte}
    (h : addressed s addr = .msgbuf off) (hj : j < 4) (hb : Memory.get s.mem (off + j) = some b) :
    byteOf (busReadWord s addr) j = b := by
  simp only [busReadWord, h]
  obtain ⟨hlane0, hlane1, hlane2, hlane3⟩ := byteOf_le32 (hostByte s.mem off s.draws)
    (hostByte s.mem (off + 1) (s.draws + 1)) (hostByte s.mem (off + 2) (s.draws + 2))
    (hostByte s.mem (off + 3) (s.draws + 3))
  obtain rfl | rfl | rfl | rfl : j = 0 ∨ j = 1 ∨ j = 2 ∨ j = 3 := by omega
  · exact hlane0.trans (hostByte_written hb _)
  · exact hlane1.trans (hostByte_written hb _)
  · exact hlane2.trans (hostByte_written hb _)
  · exact hlane3.trans (hostByte_written hb _)

/-- Settles O34, region by region. -/
theorem busReadFollowsMap : Obligations.BusReadFollowsMap := by
  intro s addr a
  have hregion : addressed s addr = regionOf s.msgBytes a := addressed_eq s addr
  refine ⟨fun ha => ?_, fun ha => ?_, fun ha => ?_, fun ha => ?_, busReadWord_digest 0 (by omega),
    busReadWord_digest 1 (by omega), busReadWord_digest 2 (by omega), busReadWord_digest 3 (by omega),
    fun hlo hhi => ?_, fun w ha hw j hj b hb => ?_, fun ha => ?_⟩
  · exact busReadWord_ctrl (by simp [hregion, ha])
  · exact busReadWord_status (by simp [hregion, ha])
  · exact busReadWord_lenLo (by simp [hregion, ha])
  · exact busReadWord_lenHi (by simp [hregion, ha])
  · exact busReadWord_reserved (hregion.trans (regionOf_reserved hlo hhi))
  · exact byteOf_busReadWord_msgbuf (addressed_msgbuf ha hw) hj hb
  · exact busReadWord_unmapped (hregion.trans (regionOf_unmapped ha))

/-! ## The host's turn with a read -/

/-- The host's turn with a read is the read, with the transaction taken off the list. -/
theorem hostTurn_read {s : State} {addr : BitVec 16} {rest : List HostOp} (h : s.host = .read addr :: rest) :
    hostTurn s = .next (busRead addr { s with host := rest }) := by
  simp [hostTurn, h]

/-- Settles O35: the step is the host's read, which draws four free values. -/
theorem hostReadHasNoSideEffect : Obligations.HostReadHasNoSideEffect := by
  intro s addr rest hr hn hhost
  have hpop : (popTurn s).host = .read addr :: rest := hhost
  refine ⟨s.draws + 4, ?_⟩
  rw [step_host hr hn, hostTurn_read hpop]
  rfl

/-! ## What a write stores -/

/-- With BUSY = 0 a store into the buffer writes the enabled lanes (R207). -/
@[simp] theorem storeWrite_msgbuf {s : State} (hb : s.status.busy = false) (off : Nat) (be : BitVec 4) (wdata : Word) :
    storeWrite (.msgbuf off) be wdata s = { s with mem := writeLanes be wdata off s.mem } := by
  simp [storeWrite, hb]

/-- A write of a buffer word with BUSY = 0 (R207). -/
theorem busWrite_msgbuf {s : State} {addr : BitVec 16} {off : Nat} (h : addressed s addr = .msgbuf off)
    (hb : s.status.busy = false) (be : BitVec 4) (wdata : Word) :
    busWrite addr be wdata s = .next { s with mem := writeLanes be wdata off s.mem } := by
  rw [busWrite_store h (by simp), storeWrite_msgbuf hb]

/-- Settles O36: the buffer after the write is given by the read-after-write laws of its lanes. -/
theorem bufferWriteStoresEnabledLanes : Obligations.BufferWriteStoresEnabledLanes := by
  intro s addr be wdata w ha hw
  have hregion := addressed_msgbuf ha hw
  refine ⟨fun hbusy => ?_, fun hidle => ⟨writeLanes be wdata (4 * w) s.mem, ?_, fun j hj => ?_, fun off hoff => ?_⟩⟩
  · rw [busWrite_store hregion (by simp), storeWrite_busy hbusy]
  · exact busWrite_msgbuf hregion hidle be wdata
  · exact memory_get_writeLanes_lane be wdata (4 * w) s.mem hj
  · exact memory_get_writeLanes_other be wdata s.mem hoff

/-- A region that the host cannot write: STATUS, DIGEST, the reserved words and the unmapped addresses (R211). -/
def Region.readOnly : Region → Prop
  | .status | .digest _ | .reserved | .unmapped => True
  | .ctrl | .lenLo | .lenHi | .msgbuf _ => False

/-- A write of a read-only region is ignored, whatever BUSY. -/
theorem busWrite_readOnly {s : State} {addr : BitVec 16} (h : (addressed s addr).readOnly) (be : BitVec 4)
    (wdata : Word) : busWrite addr be wdata s = .next s := by
  cases hregion : addressed s addr <;> rw [hregion] at h
  case ctrl | lenLo | lenHi | msgbuf => exact h.elim
  all_goals
    rw [busWrite_store hregion (by simp)]
    simp [storeWrite]

/-- Settles O38: each of these addresses is in a read-only region. -/
theorem readOnlyAddressesIgnoreWrites : Obligations.ReadOnlyAddressesIgnoreWrites := by
  intro s addr be wdata a ha
  apply busWrite_readOnly
  rw [addressed_eq]
  change (regionOf s.msgBytes a).readOnly
  rcases ha with ha | ⟨hlo, hhi⟩ | ha
  · rw [ha]
    trivial
  · by_cases hdigest : a < 0x0020
    · rw [regionOf_digest hlo hdigest]
      trivial
    · rw [regionOf_reserved (by omega) hhi]
      trivial
  · rw [regionOf_unmapped ha]
    trivial

/-! ## The spelling of an address -/

/-- Settles O40: a transaction uses its address only through the region. -/
theorem lowAddressBitsIgnored : Obligations.LowAddressBitsIgnored := by
  intro s addr addr' be wdata h
  have hregion := addressed_congr s h
  exact ⟨by simp only [busRead, busReadWord, hregion], by simp only [busWrite, hregion]⟩

/-- Two words with the same four bytes are equal. -/
theorem word_eq_of_bytes {v w : Word} (h : ∀ j < 4, byteOf v j = byteOf w j) : v = w := by
  rw [← le32_byteOf v, h 0 (by omega), h 1 (by omega), h 2 (by omega), h 3 (by omega), le32_byteOf]

/-- Settles O41: after the write every byte of the word is written, and the read returns each in its lane. -/
theorem bufferWordReadsBack : Obligations.BufferWordReadsBack := by
  intro s addr addr' wdata w hidle ha hw hspell
  refine ⟨_, busWrite_msgbuf (addressed_msgbuf ha hw) hidle 0xF#4 wdata, word_eq_of_bytes fun j hj => ?_⟩
  have henabled : ∀ k < 4, (0xF#4).getLsbD k = true := by decide
  refine byteOf_busReadWord_msgbuf (addressed_msgbuf (by rw [hspell, ha]) hw) hj ?_
  rw [memory_get_writeLanes_lane _ _ _ _ hj, if_pos (henabled j hj)]

end Sys2Proof.Machine
end

section
/-! LOAD and unwritten bytes (R205): a block with an unwritten byte gives no result, and where the offsets are in range no
other fault can come first. -/

namespace Sys2Proof.Machine

/-- A word that is available has its four bytes available. -/
theorem readWord_all {byte : Nat → Except Fault Byte} {off : Nat} {v : Word} (h : readWord byte off = .ok v) :
    ∀ j < 4, ∃ b, byte (off + j) = .ok b := by
  unfold readWord at h
  intro j hj
  cases h0 : byte off with
  | error e => simp [h0, bind, Except.bind] at h
  | ok b0 =>
    cases h1 : byte (off + 1) with
    | error e => simp [h0, h1, bind, Except.bind] at h
    | ok b1 =>
      cases h2 : byte (off + 2) with
      | error e => simp [h0, h1, h2, bind, Except.bind] at h
      | ok b2 =>
        cases h3 : byte (off + 3) with
        | error e => simp [h0, h1, h2, h3, bind, Except.bind] at h
        | ok b3 =>
          obtain rfl | rfl | rfl | rfl : j = 0 ∨ j = 1 ∨ j = 2 ∨ j = 3 := by omega
          · exact ⟨b0, h0⟩
          · exact ⟨b1, h1⟩
          · exact ⟨b2, h2⟩
          · exact ⟨b3, h3⟩

/-- LOAD faults with `f` when its words are read from 64 bytes of which one faults with `f` and none faults otherwise. -/
theorem execLoad_fault_of_byte {s : State} {byte : Nat → Except Fault Byte} {base k : Nat} {f : Fault}
    (hword : ∀ w, scheduleWord s w = readWord byte (base + 4 * w)) (hk : k < 64) (hfault : byte (base + k) = .error f)
    (honly : ∀ n < 64, ∀ e, byte (base + n) = .error e → e = f) : execLoad s = .fault f := by
  cases hload : execLoad s with
  | next t =>
    obtain ⟨x, hx, -⟩ := execLoad_next hload
    obtain ⟨v, hv⟩ := collectWords_all hx (k / 4) (by omega)
    obtain ⟨b, hb⟩ := readWord_all ((hword (k / 4)).symm.trans hv) (k % 4) (by omega)
    rw [show base + 4 * (k / 4) + k % 4 = base + k by omega, hfault] at hb
    simp at hb
  | fault e =>
    obtain ⟨w, hw, he⟩ := execLoad_fault hload
    obtain ⟨j, hj, hbyte⟩ := readWord_error ((hword w).symm.trans he)
    rw [Nat.add_assoc] at hbyte
    rw [honly (4 * w + j) (by omega) e hbyte]
  | refused r => exact absurd hload execLoad_not_refused

/-- Inside the buffer the only fault of the engine's read is an unwritten byte. -/
theorem memRead1_error {s : State} {off : Nat} {e : Fault} (hoff : off < s.msgBytes)
    (h : memRead1 s off = .error e) : e = .unwrittenByte := by
  cases hget : Memory.get s.mem off with
  | none =>
    rw [memRead1_unwritten hoff hget] at h
    exact (Except.error.inj h).symm
  | some b => simp [memRead1_ok hoff hget] at h

/-- A padded byte below the length is the message byte (R424). -/
theorem padByte_message {s : State} {j : Nat} (h : j < s.lenQ.toNat) : padByte s j = memRead1 s j := by
  simp [padByte, h]

/-- Below the padded length of a message that fits the buffer, the only fault of a padded byte is an unwritten message byte. -/
theorem padByte_error {s : State} {j : Nat} {e : Fault} (hfit : s.lenQ.toNat ≤ s.msgBytes)
    (hj : j < paddedLength s.lenQ.toNat) (h : padByte s j = .error e) : e = .unwrittenByte := by
  by_cases hmsg : j < s.lenQ.toNat
  · rw [padByte_message hmsg] at h
    exact memRead1_error (by omega) h
  · simp only [padByte, hmsg, hj, if_false, if_true] at h
    repeat' split at h
    all_goals simp at h

/-- A block that starts below the message's length ends within its padded length (R421). -/
theorem block_end_le_paddedLength {L n : Nat} (h : 64 * n < L) : 64 * n + 64 ≤ paddedLength L := by
  unfold paddedLength blockCount
  omega

/-- Settles O21: COMPRESS reads bytes 0..63 of the buffer, HASH those of block `blk` of the padded message. -/
theorem loadFaultsOnUnwrittenByte : Obligations.LoadFaultsOnUnwrittenByte := by
  intro s j hunwritten
  refine ⟨fun hop hj hcap => ?_, fun hop hlo hhi hmsg hfit => ?_⟩
  · have hword : ∀ w, scheduleWord s w = readWord (memRead1 s) (0 + 4 * w) := fun w => by
      simp [scheduleWord, hop, memRead4]
    refine execLoad_fault_of_byte hword hj ?_ fun n hn e => memRead1_error (by omega)
    rw [Nat.zero_add]
    exact memRead1_unwritten (by omega) hunwritten
  · have hword : ∀ w, scheduleWord s w = readWord (padByte s) (64 * s.blk + 4 * w) := fun w => by
      simp [scheduleWord, hop]
    have hend : 64 * s.blk + 64 ≤ paddedLength s.lenQ.toNat := block_end_le_paddedLength (by omega)
    refine execLoad_fault_of_byte (k := j - 64 * s.blk) hword (by omega) ?_ fun n hn e => padByte_error hfit (by omega)
    rw [Nat.add_sub_cancel' hlo, padByte_message hmsg]
    exact memRead1_unwritten (by omega) hunwritten

end Sys2Proof.Machine
end

section
/-! What the two agents leave to each other (R214): the host while BUSY touches only ERR, ERRCODE and the environment, and the
engine neither writes the buffer and LEN nor depends on what the host may write while it runs. -/

namespace Sys2Proof.Machine

/-! ## The host while BUSY -/

/-- While BUSY a CTRL word is without effect or rejected (R605). -/
theorem command_busy {s t : State} {w : Word} (hb : s.status.busy = true) (h : exec (decodeCommand w) s = .next t) :
    t = s ∨ ∃ code, t = reject code s := by
  rcases command_cases h with rfl | ⟨code, -, rfl⟩ | ⟨hidle, -⟩ | ⟨hidle, -⟩ | ⟨hidle, -, -⟩
  · exact .inl rfl
  · exact .inr ⟨code, rfl⟩
  all_goals simp [hb] at hidle

/-- While BUSY the host's turn writes ERR, ERRCODE and the environment only. -/
theorem hostTurn_busy {s t : State} (hb : s.status.busy = true) (h : hostTurn s = .next t) :
    ∃ err errcode rest reads draws,
      t = { s with
        status := { s.status with err := err, errcode := errcode }
        host := rest
        reads := reads
        draws := draws } := by
  rcases hostTurn_cases h with ⟨rest, w, hx⟩ | ⟨hidle, -⟩ | ⟨hidle, -⟩ | ⟨hidle, -⟩ | ⟨rest, reads, draws, rfl⟩
  · rcases command_busy (s := { s with host := rest }) hb hx with rfl | ⟨code, rfl⟩
    · exact ⟨s.status.err, s.status.errcode, rest, s.reads, s.draws, rfl⟩
    · exact ⟨true, code, rest, s.reads, s.draws, rfl⟩
  · simp [hb] at hidle
  · simp [hb] at hidle
  · simp [hb] at hidle
  · exact ⟨s.status.err, s.status.errcode, rest, reads, draws, rfl⟩

/-- Settles O54: the host's turn always answers, and while BUSY it writes nothing else. -/
theorem hostTurnWhileBusyLeavesDatapath : Obligations.HostTurnWhileBusyLeavesDatapath := by
  intro s hr hb hn
  obtain ⟨t, ht⟩ := hostTurn_next (popTurn s)
  refine ⟨t, (step_host hr hn).trans ht, ?_⟩
  obtain ⟨err, errcode, rest, reads, draws, rfl⟩ := hostTurn_busy (s := popTurn s) hb ht
  simp [sameDatapath, hr]

/-! ## The engine and the host's storage -/

@[simp] theorem advanceRound_mem (s : State) : (advanceRound s).mem = s.mem := by
  unfold advanceRound
  split <;> rfl

@[simp] theorem advanceRound_lenLo (s : State) : (advanceRound s).lenLo = s.lenLo := by
  unfold advanceRound
  split <;> rfl

@[simp] theorem advanceRound_lenHi (s : State) : (advanceRound s).lenHi = s.lenHi := by
  unfold advanceRound
  split <;> rfl

/-- The engine writes neither the buffer nor LEN (R206). -/
theorem engineTurn_hostStorage {s t : State} (h : engineTurn s = .next t) :
    t.mem = s.mem ∧ t.lenLo = s.lenLo ∧ t.lenHi = s.lenHi := by
  rcases engineTurn_cases h with ⟨-, rfl⟩ | ⟨-, hx⟩ | ⟨-, hx⟩ | ⟨-, hx⟩ | ⟨-, hx⟩
  · exact ⟨rfl, rfl, rfl⟩
  · obtain ⟨x, -, rfl⟩ := execLoad_next hx
    exact ⟨rfl, rfl, rfl⟩
  · obtain ⟨u, m, ti, -, -, -, -, rfl⟩ := execRound_next hx
    exact ⟨advanceRound_mem _, advanceRound_lenLo _, advanceRound_lenHi _⟩
  · obtain rfl := Host.Outcome.next.inj hx
    exact ⟨rfl, rfl, rfl⟩
  · obtain rfl := Host.Outcome.next.inj hx
    exact ⟨rfl, rfl, rfl⟩

/-- Settles O53, by the cases of a step: all but reset and the host's turn with BUSY = 0 leave the buffer and LEN. -/
theorem messageFixedWhileBusy : Obligations.MessageFixedWhileBusy := by
  intro s t h hne
  rcases step_cases h with ⟨u, -, -, -, -, hr⟩ | ⟨-, rfl⟩ | ⟨-, hn, hx⟩ | ⟨-, -, hx⟩ | ⟨-, -, hx⟩
  · exact .inr hr
  · simp at hne
  · cases hb : s.status.busy with
    | false => exact .inl ⟨hn, rfl⟩
    | true =>
      obtain ⟨err, errcode, rest, reads, draws, rfl⟩ := hostTurn_busy (s := popTurn s) hb hx
      simp at hne
  · obtain ⟨hmem, hlo, hhi⟩ := engineTurn_hostStorage hx
    simp [hmem, hlo, hhi] at hne
  · obtain ⟨w, rfl⟩ := datapathTurn_cases hx
    simp at hne

/-! ## The engine in two states with the same datapath -/

/-- The datapath of `s` with ERR, ERRCODE, LEN and the environment of `h`. -/
def withHostSideOf (s h : State) : State :=
  { s with
    status := { s.status with err := h.status.err, errcode := h.status.errcode }
    lenLo := h.lenLo
    lenHi := h.lenHi
    rst := h.rst
    host := h.host
    sched := h.sched
    reads := h.reads
    draws := h.draws }

/-- Whatever the host's side, the datapath is the same. -/
theorem sameDatapath_withHostSideOf (s h : State) : sameDatapath s (withHostSideOf s h) := by
  simp [sameDatapath, withHostSideOf]

/-- A state with the same datapath as `s` is `s` but for its host's side. -/
theorem eq_withHostSideOf {s h : State} (hsame : sameDatapath s h) : h = withHostSideOf s h := by
  obtain ⟨hchain, hwork, hx, hromT, hsrom, hfsm, hop, hi, hblk, hnblk, hlenQ, hbusy, hdone, hdigest, hmem, hcap⟩ := hsame
  simp [withHostSideOf, ← hchain, ← hwork, ← hx, ← hromT, ← hsrom, ← hfsm, ← hop, ← hi, ← hblk, ← hnblk, ← hlenQ,
    ← hbusy, ← hdone, ← hdigest, ← hmem, ← hcap]

/-- In IDLE the engine's turn changes nothing (R560). -/
theorem engineTurn_idle {s : State} (h : s.fsm = Fsm.idle) : engineTurn s = .next s := if_pos h

/-- ROUND with its microword, R314's, and its constant at hand. -/
theorem execRound_of_entry {s : State} {u : BitVec 16} {m : Microword} {ti : Word} (hu : microwordOperand s = some u)
    (hrom : romEntry stepRom s.i = some u) (hm : decodeMicroword u = .ok m) (hti : constantOperand s = some ti) :
    execRound s =
      .next (advanceRound { s with work := stepQuad m.fn m.s (scheduleOperand s m.k) ti s.work }) := by
  simp [execRound, fetchMicroword_entry hu hrom hm, execMicroword_eq, stepOperation, hti]

/-- No schedule word depends on the host's side. -/
theorem scheduleWord_withHostSideOf (s h : State) : scheduleWord (withHostSideOf s h) = scheduleWord s := by
  have hread : memRead1 (withHostSideOf s h) = memRead1 s := rfl
  have hpad : padByte (withHostSideOf s h) = padByte s := by
    funext j
    simp only [padByte, hread]
    rfl
  funext w
  simp only [scheduleWord, memRead4, hread, hpad]
  rfl

/-- LOAD reads nothing of the host's side. -/
theorem execLoad_withHostSideOf {s t : State} (h : State) (hx : execLoad s = .next t) :
    execLoad (withHostSideOf s h) = .next (withHostSideOf t h) := by
  obtain ⟨x, hwords, rfl⟩ := execLoad_next hx
  unfold execLoad
  rw [scheduleWord_withHostSideOf, hwords]
  rfl

theorem advanceRound_withHostSideOf (s h : State) :
    advanceRound (withHostSideOf s h) = withHostSideOf (advanceRound s) h := by
  have hi : (withHostSideOf s h).i = s.i := rfl
  unfold advanceRound
  rw [hi]
  split <;> rfl

/-- ROUND reads nothing of the host's side. -/
theorem execRound_withHostSideOf {s t : State} (h : State) (hx : execRound s = .next t) :
    execRound (withHostSideOf s h) = .next (withHostSideOf t h) := by
  obtain ⟨u, m, ti, hu, hrom, hm, hti, rfl⟩ := execRound_next hx
  rw [execRound_of_entry (s := withHostSideOf s h) hu hrom hm hti, ← advanceRound_withHostSideOf]
  rfl

/-- The engine's turn reads nothing of the host's side and leaves it as it is. -/
theorem engineTurn_withHostSideOf {s t : State} (h : State) (hx : engineTurn s = .next t) :
    engineTurn (withHostSideOf s h) = .next (withHostSideOf t h) := by
  rcases engineTurn_cases hx with ⟨hf, rfl⟩ | ⟨hf, hx⟩ | ⟨hf, hx⟩ | ⟨hf, hx⟩ | ⟨hf, hx⟩
  · exact engineTurn_idle (s := withHostSideOf t h) hf
  · exact (engineTurn_load (s := withHostSideOf s h) hf).trans (execLoad_withHostSideOf h hx)
  · exact (engineTurn_round (s := withHostSideOf s h) hf).trans (execRound_withHostSideOf h hx)
  · obtain rfl := Host.Outcome.next.inj hx
    exact engineTurn_fold (s := withHostSideOf s h) hf
  · obtain rfl := Host.Outcome.next.inj hx
    exact engineTurn_assemble (s := withHostSideOf s h) hf

/-- Settles O55: two states with the same datapath differ in the host's side only. -/
theorem engineStepIgnoresHostState : Obligations.EngineStepIgnoresHostState := by
  intro s s' t hsame ht
  refine ⟨withHostSideOf t s', ?_, sameDatapath_withHostSideOf t s'⟩
  calc engineTurn s' = engineTurn (withHostSideOf s s') := congrArg engineTurn (eq_withHostSideOf hsame)
    _ = .next (withHostSideOf t s') := engineTurn_withHostSideOf s' ht

end Sys2Proof.Machine
end

section
/-! The encodings: each format is decoded from the bytes of one word, a word and its fields give each other back, and the
round trips between instructions and bytes are assembled from these laws format by format. -/

namespace Sys2Proof

open Sys2Proof.Machine

/-! ## Words and their bytes -/

/-- A byte is its own one byte. -/
@[simp] theorem leBytes_byte (b : Byte) : leBytes b 1 = [b] := by
  simp [leBytes, byteOf]

/-- The bytes of two bytes put together, least significant first. -/
@[simp] theorem leBytes_two_bytes (b1 b0 : Byte) : leBytes (b1 ++ b0) 2 = [b0, b1] := by
  have hlow : byteOf (b1 ++ b0) 0 = b0 := BitVec.extractLsb'_append_eq_right
  have hhigh : byteOf (b1 ++ b0) 1 = b1 := BitVec.extractLsb'_append_eq_left
  simp [leBytes, List.range_succ, hlow, hhigh]

/-- A 16-bit word is its two bytes put together. -/
@[simp] theorem byteOf_append_byteOf (u : BitVec 16) : byteOf u 1 ++ byteOf u 0 = u :=
  BitVec.extractLsb'_append_extractLsb'

/-- The low bytes of a word are those of the word cut to a width that holds them. -/
theorem leBytes_setWidth {n m k : Nat} (w : BitVec n) (h : 8 * k ≤ m) : leBytes (w.setWidth m) k = leBytes w k := by
  refine List.map_congr_left fun j hj => BitVec.extractLsb'_setWidth_of_le ?_
  have := List.mem_range.mp hj
  omega

/-! ## The command word, CTRLW -/

/-- Four bytes decode as the command of their word (R301). -/
theorem decode_ctrlw {w : Word} {i : Instr} (h : decodeCommand w = i) (rest : List Byte) :
    decode .ctrlw (leBytes w 4 ++ rest) = .ok (i, rest) := by
  have hbytes : leBytes w 4 = [byteOf w 0, byteOf w 1, byteOf w 2, byteOf w 3] := rfl
  simp [hbytes, decode, h]

/-- Settles O6: OP is the value modulo 16, and the table is compared for each of the 16 opcodes. -/
theorem commandDecodedByLowFourBits : Obligations.CommandDecodedByLowFourBits := by
  intro w
  have hop : w.extractLsb' 0 4 = BitVec.ofNat 4 (w.toNat % 16) := by
    apply BitVec.eq_of_toNat_eq
    simp
  have hlt : w.toNat % 16 < 16 := Nat.mod_lt _ (by omega)
  unfold decodeCommand
  rw [hop]
  generalize w.toNat % 16 = op at hlt
  interval_cases op <;> rfl

/-- The opcode of a command word is the one it was made for. -/
theorem commandWord_toNat_mod (op : BitVec 4) : (commandWord op).toNat % 16 = op.toNat := by
  have := op.isLt
  simp only [commandWord, BitVec.toNat_setWidth]
  omega

/-- The first reserved row decodes to its opcode. -/
theorem decodeCommand_reservedOp47 {op : BitVec 4} (h : inReserved47 op = true) :
    decodeCommand (commandWord op) = .reservedOp47 op := by
  obtain ⟨hlo, hhi⟩ : 4 ≤ op.toNat ∧ op.toNat ≤ 7 := by simpa [inReserved47] using h
  rw [commandDecodedByLowFourBits, commandWord_toNat_mod, if_neg (by omega), if_neg (by omega), if_neg (by omega),
    if_neg (by omega), if_pos (by omega), BitVec.ofNat_toNat, BitVec.setWidth_eq]

/-- The second reserved row decodes to its opcode. -/
theorem decodeCommand_reservedOp8F {op : BitVec 4} (h : inReserved8F op = true) :
    decodeCommand (commandWord op) = .reservedOp8F op := by
  have hlo : 8 ≤ op.toNat := by simpa [inReserved8F] using h
  rw [commandDecodedByLowFourBits, commandWord_toNat_mod, if_neg (by omega), if_neg (by omega), if_neg (by omega),
    if_neg (by omega), if_neg (by omega), BitVec.ofNat_toNat, BitVec.setWidth_eq]

/-- A command word decodes to an instruction of the format CTRLW. -/
theorem decodeCommand_format (w : Word) : (decodeCommand w).format = .ctrlw := by
  unfold decodeCommand
  simp only
  repeat' split
  all_goals rfl

/-! ## The step microword, STEPW -/

/-- The code of a function selects it (R311). -/
@[simp] theorem decodeFn_fnCode (f : AuxFn) : decodeFn (fnCode f) = f := by
  cases f <;> rfl

/-- Every value of the field `FN` is the code of the function it selects (R311). -/
@[simp] theorem fnCode_decodeFn : ∀ f : BitVec 2, fnCode (decodeFn f) = f := by
  decide

/-- The fields of a microword stand side by side, S above K above FN, with zeros above them (R310). -/
theorem encodeMicroword_eq_append (m : Microword) :
    encodeMicroword m = (m.s ++ m.k ++ fnCode m.fn).setWidth 16 := by
  rw [BitVec.setWidth_append_append_eq_shiftLeft_setWidth_or, encodeMicroword]
  ac_rfl

/-- Decoding the word of a microword gives its fields back. -/
theorem decodeMicroword_encodeMicroword (m : Microword) : decodeMicroword (encodeMicroword m) = .ok m := by
  have hzero : (encodeMicroword m).extractLsb' 11 5 = 0#5 := by
    rw [encodeMicroword_eq_append, BitVec.setWidth_eq_append (by omega)]
    exact BitVec.extractLsb'_append_eq_left
  have hfn : (encodeMicroword m).extractLsb' 0 2 = fnCode m.fn := by
    rw [encodeMicroword_eq_append, BitVec.extractLsb'_setWidth_of_le (by omega)]
    exact BitVec.extractLsb'_append_eq_right
  have hk : (encodeMicroword m).extractLsb' 2 4 = m.k := by
    rw [encodeMicroword_eq_append, BitVec.extractLsb'_setWidth_of_le (by omega),
      BitVec.extractLsb'_append_eq_of_le (by omega)]
    exact BitVec.extractLsb'_append_eq_right
  have hs : (encodeMicroword m).extractLsb' 6 5 = m.s := by
    rw [encodeMicroword_eq_append, BitVec.extractLsb'_setWidth_of_le (by omega),
      BitVec.extractLsb'_append_eq_of_le (by omega)]
    exact BitVec.extractLsb'_append_eq_left
  rw [decodeMicroword, if_pos hzero, hfn, hk, hs, decodeFn_fnCode]

/-- A word that decodes to a microword is the word of it: the reserved bits are zero and the fields are all the others. -/
theorem encodeMicroword_of_decodeMicroword {u : BitVec 16} {m : Microword} (h : decodeMicroword u = .ok m) :
    encodeMicroword m = u := by
  unfold decodeMicroword at h
  split at h
  · rename_i hzero
    obtain rfl := Except.ok.inj h
    have hfields : u.extractLsb' 6 5 ++ u.extractLsb' 2 4 ++ u.extractLsb' 0 2 = u.extractLsb' 0 11 := by
      rw [BitVec.extractLsb'_append_extractLsb'_eq_extractLsb' (by omega),
        BitVec.extractLsb'_append_extractLsb'_eq_extractLsb' (by omega)]
    calc encodeMicroword _ = (u.extractLsb' 0 11).setWidth 16 := by
          rw [encodeMicroword_eq_append]
          simp only [fnCode_decodeFn, hfields]
      _ = u.extractLsb' 11 5 ++ u.extractLsb' 0 11 := by
          rw [hzero]
          exact BitVec.setWidth_eq_append (by omega)
      _ = u := BitVec.extractLsb'_append_extractLsb'
  · simp at h

/-- The instruction of a microword has the format STEPW. -/
theorem toInstr_format (m : Microword) : m.toInstr.format = .stepw := by
  obtain ⟨fn, k, s⟩ := m
  cases fn <;> rfl

/-- The instruction of a microword is encoded as the microword's two bytes. -/
theorem encode_toInstr (m : Microword) : encode m.toInstr = leBytes (encodeMicroword m) 2 := by
  obtain ⟨fn, k, s⟩ := m
  cases fn <;> rfl

/-- Two bytes decode as the microword they are. -/
theorem decode_stepw {u : BitVec 16} {m : Microword} (h : decodeMicroword u = .ok m) (rest : List Byte) :
    decode .stepw (leBytes u 2 ++ rest) = .ok (m.toInstr, rest) := by
  have hbytes : leBytes u 2 = [byteOf u 0, byteOf u 1] := rfl
  simp [hbytes, decode, h]

/-- What decodes in the format STEPW: the two bytes of a microword, and the rest. -/
theorem decode_stepw_ok {bs rest : List Byte} {i : Instr} (h : decode .stepw bs = .ok (i, rest)) :
    ∃ u m, bs = leBytes u 2 ++ rest ∧ decodeMicroword u = .ok m ∧ i = m.toInstr := by
  match bs, h with
  | b0 :: b1 :: bs, h =>
    cases hm : decodeMicroword (b1 ++ b0) with
    | ok m =>
      simp only [decode, hm, Except.ok.injEq, Prod.mk.injEq] at h
      obtain ⟨rfl, rfl⟩ := h
      exact ⟨b1 ++ b0, m, by simp, hm, rfl⟩
    | error e => simp [decode, hm] at h

/-- The encoding of a microword's instruction decodes to it. -/
theorem decode_encode_toInstr (m : Microword) (rest : List Byte) :
    decode .stepw (encode m.toInstr ++ rest) = .ok (m.toInstr, rest) := by
  rw [encode_toInstr]
  exact decode_stepw (decodeMicroword_encodeMicroword m) rest

/-! ## The sequencer code, FSM -/

/-- A code that names a micro-step: its instruction has the format FSM and is encoded as the code in one byte (R316). -/
theorem encode_of_decodeFsm {c : BitVec 3} {i : Instr} (h : decodeFsm c = .ok i) :
    i.format = .fsm ∧ encode i = leBytes (c.setWidth 8) 1 := by
  unfold decodeFsm at h
  repeat' split at h
  all_goals cases h
  all_goals
    subst c
    exact ⟨rfl, rfl⟩

/-- One byte decodes as the code it holds. -/
theorem decode_fsm {c : BitVec 3} {i : Instr} (h : decodeFsm c = .ok i) (rest : List Byte) :
    decode .fsm (leBytes (c.setWidth 8) 1 ++ rest) = .ok (i, rest) := by
  have hlt : c.toNat < 8 := c.isLt
  have hnarrow : c.toNat % 256 < 8 := by omega
  simp [decode, h, hnarrow]

/-- What decodes in the format FSM: the byte of a code that names a micro-step, and the rest. -/
theorem decode_fsm_ok {bs rest : List Byte} {i : Instr} (h : decode .fsm bs = .ok (i, rest)) :
    ∃ c : BitVec 3, bs = leBytes (c.setWidth 8) 1 ++ rest ∧ decodeFsm c = .ok i := by
  match bs, h with
  | b0 :: bs, h =>
    by_cases hnarrow : b0.toNat < 8
    · have hbyte : (b0.setWidth 3).setWidth 8 = b0 := by
        apply BitVec.eq_of_toNat_eq
        simp only [BitVec.toNat_setWidth]
        omega
      cases hc : decodeFsm (b0.setWidth 3) with
      | ok i' =>
        simp only [decode, hnarrow, if_true, hc, Except.ok.injEq, Prod.mk.injEq] at h
        obtain ⟨rfl, rfl⟩ := h
        exact ⟨b0.setWidth 3, by simp [hbyte], hc⟩
      | error e => simp [decode, hnarrow, hc] at h
    · simp [decode, hnarrow] at h

/-! ## The round trips -/

/-- Settles O4: each row by the law of its format. -/
theorem decodeOfEncode : Obligations.DecodeOfEncode := by
  intro i rest hwf
  cases i with
  | nop => exact decode_ctrlw (w := commandWord 0#4) rfl rest
  | init => exact decode_ctrlw (w := commandWord 1#4) rfl rest
  | compress => exact decode_ctrlw (w := commandWord 2#4) rfl rest
  | hash => exact decode_ctrlw (w := commandWord 3#4) rfl rest
  | reservedOp47 op => exact decode_ctrlw (decodeCommand_reservedOp47 hwf) rest
  | reservedOp8F op => exact decode_ctrlw (decodeCommand_reservedOp8F hwf) rest
  | stepF k s => exact decode_encode_toInstr ⟨.F, k, s⟩ rest
  | stepG k s => exact decode_encode_toInstr ⟨.G, k, s⟩ rest
  | stepH k s => exact decode_encode_toInstr ⟨.H, k, s⟩ rest
  | stepI k s => exact decode_encode_toInstr ⟨.I, k, s⟩ rest
  | load => exact decode_fsm (c := Fsm.load) rfl rest
  | round => exact decode_fsm (c := Fsm.round) rfl rest
  | fold => exact decode_fsm (c := Fsm.fold) rfl rest
  | assemble => exact decode_fsm (c := Fsm.assemble) rfl rest

/-- Settles O5: both formats but CTRLW have words that are the encoding of what they decode to. -/
theorem encodeOfDecodedMicroword : Obligations.EncodeOfDecodedMicroword := by
  intro f bs rest i hf h
  cases f with
  | ctrlw => exact absurd rfl hf
  | stepw =>
    obtain ⟨u, m, rfl, hm, rfl⟩ := decode_stepw_ok h
    exact ⟨toInstr_format m, by rw [encode_toInstr, encodeMicroword_of_decodeMicroword hm]⟩
  | fsm =>
    obtain ⟨c, rfl, hc⟩ := decode_fsm_ok h
    obtain ⟨hformat, hbytes⟩ := encode_of_decodeFsm hc
    exact ⟨hformat, by rw [hbytes]⟩

/-! ## Words of the tables -/

/-- Settles O7, by running the decoder on each word. -/
theorem writtenOutWordsDecode : Obligations.WrittenOutWordsDecode := by
  unfold Obligations.WrittenOutWordsDecode
  decide

/-- Settles O8: the entries are those of `stepRom_params`. -/
theorem stepRomEncodesRoundTable : Obligations.StepRomEncodesRoundTable := by
  intro i h1 h64
  have hi : (BitVec.ofNat 7 i).toNat = i := by
    simp only [BitVec.toNat_ofNat]
    omega
  refine ⟨_, romEntry_of_range stepRom (by omega) (by omega), ?_⟩
  obtain ⟨n, rfl⟩ := Nat.exists_eq_add_of_le' h1
  have hparams := stepRom_params ⟨n, by omega⟩
  simp only [hi, Nat.add_sub_cancel]
  exact hparams

end Sys2Proof
end

section
/-! What a fetched word does: no instruction is refused, an entry of the step ROM that is not R314's faults at its fetch, and
a turn or a placed table word runs the instruction that its word decodes to. -/

namespace Sys2Proof.Machine

/-! ## No instruction is refused -/

/-- A step operation answers a next state or a fault. -/
theorem stepOperation_not_refused (fn : AuxFn) (k : BitVec 4) (sh : BitVec 5) (s : State) (r : Refusal) :
    stepOperation fn k sh s ≠ .refused r := by
  unfold stepOperation
  split <;> simp

/-- ROUND answers a next state or a fault. -/
theorem execRound_not_refused (s : State) (r : Refusal) : execRound s ≠ .refused r := by
  unfold execRound
  split
  · simp
  · rename_i m _
    rw [execMicroword_eq]
    cases hm : stepOperation m.fn m.k m.s s with
    | next t => simp
    | fault f => simp
    | refused r' => exact absurd hm (stepOperation_not_refused _ _ _ _ _)

/-- Every row of the opcode table has a meaning (R302, R311, R316). -/
theorem exec_not_refused (i : Instr) (s : State) (r : Refusal) : exec i s ≠ .refused r := by
  cases i with
  | nop => simp [exec, execNop]
  | init =>
    simp only [exec, execInit]
    split <;> simp
  | compress =>
    simp only [exec, execCompress]
    split <;> simp
  | hash =>
    simp only [exec, execHash]
    split
    · simp
    · split <;> simp
  | reservedOp47 op => simp [exec, execReservedOp47]
  | reservedOp8F op => simp [exec, execReservedOp8F]
  | stepF k sh => exact stepOperation_not_refused .F k sh s r
  | stepG k sh => exact stepOperation_not_refused .G k sh s r
  | stepH k sh => exact stepOperation_not_refused .H k sh s r
  | stepI k sh => exact stepOperation_not_refused .I k sh s r
  | load => exact execLoad_not_refused
  | round => exact execRound_not_refused s r
  | fold => simp [exec, execFold]
  | assemble => simp [exec, execAssemble]

/-- The engine's turn is idle, an instruction, or a fault. -/
theorem engineTurn_not_refused (s : State) (r : Refusal) : engineTurn s ≠ .refused r := by
  unfold engineTurn
  split
  · simp
  · split
    · exact exec_not_refused _ s r
    · simp

/-- A turn of the datapath alone is an instruction or a fault. -/
theorem datapathTurn_not_refused (s : State) (r : Refusal) : datapathTurn s ≠ .refused r := by
  unfold datapathTurn
  split
  · exact exec_not_refused _ s r
  · simp

/-- Settles O47, by the turns: a reset edge always answers, and outside reset each agent's turn answers or faults. -/
theorem noStepIsRefused : Obligations.NoStepIsRefused := by
  intro s r
  unfold step machineStep
  cases nextTurn s with
  | rst level =>
    simp only [takeTurn]
    split <;> simp
  | host =>
    simp only [takeTurn]
    split
    · simp
    · obtain ⟨t, ht⟩ := hostTurn_next (popTurn s)
      simp [ht]
  | engine =>
    simp only [takeTurn]
    split
    · simp
    · exact engineTurn_not_refused (popTurn s) r
  | datapath =>
    simp only [takeTurn]
    split
    · simp
    · exact datapathTurn_not_refused (popTurn s) r

/-! ## The fetch of a microword (R315) -/

/-- ROUND's fault at its fetch. -/
theorem execRound_of_fetch_error {s : State} {f : Fault} (h : fetchMicroword s = .error f) : execRound s = .fault f := by
  simp [execRound, h]

/-- The fault of a turn of the datapath alone at its fetch. -/
theorem datapathTurn_of_fetch_error {s : State} {f : Fault} (h : fetchMicroword s = .error f) :
    datapathTurn s = .fault f := by
  simp [datapathTurn, h]

/-- A turn of the datapath alone with its microword, R314's, at hand. -/
theorem datapathTurn_of_entry {s : State} {u : BitVec 16} {m : Microword} (hu : microwordOperand s = some u)
    (hrom : romEntry stepRom s.i = some u) (hm : decodeMicroword u = .ok m) : datapathTurn s = exec m.toInstr s := by
  simp [datapathTurn, fetchMicroword_entry hu hrom hm]

/-- Settles O16: the fetch faults, and both users of it with it. -/
theorem foreignStepRomEntryFaults : Obligations.ForeignStepRomEntryFaults := by
  intro s n hi hforeign
  have hentry : ∀ rom : Vector (BitVec 16) 64, romEntry rom s.i = some rom[n.val] := fun rom => by
    rw [romEntry_of_range rom (by omega) (by omega)]
    simp only [hi, Nat.add_sub_cancel]
  have hfetch : fetchMicroword s = .error .stepRomEntry :=
    fetchMicroword_foreign (hentry s.srom) fun h => hforeign (Option.some.inj ((hentry stepRom).symm.trans h)).symm
  exact ⟨execRound_of_fetch_error hfetch, fun hr hn =>
    (step_datapath hr hn).trans (datapathTurn_of_fetch_error (s := popTurn s) hfetch)⟩

/-! ## What a table word decodes to -/

/-- Two 16-bit words with the same bytes are equal. -/
theorem eq_of_leBytes_two {u v : BitVec 16} {rest : List Byte} (h : leBytes u 2 = leBytes v 2 ++ rest) : u = v := by
  obtain ⟨hlow, hhigh, -⟩ : byteOf u 0 = byteOf v 0 ∧ byteOf u 1 = byteOf v 1 ∧ [] = rest := by
    simpa [leBytes, List.range_succ] using h
  rw [← byteOf_append_byteOf u, hlow, hhigh, byteOf_append_byteOf]

/-- The instruction of a table word is decoded from the word's low bytes, as many as its format has. -/
theorem decodeTableWord_some {nbits w : Nat} {i : Instr} {f : Format} (hf : formatOfBits nbits = some f)
    (h : decodeTableWord nbits w = some i) :
    ∃ rest, decode f (leBytes (BitVec.ofNat 32 w) f.bytes) = .ok (i, rest) := by
  cases hd : decode f (leBytes (BitVec.ofNat 32 w) f.bytes) with
  | ok p =>
    obtain rfl : p.1 = i := by simpa [decodeTableWord, hf, hd] using h
    exact ⟨p.2, rfl⟩
  | error e => simp [decodeTableWord, hf, hd] at h

/-- A table word of the format CTRLW is the command of the word. -/
theorem decodeTableWord_ctrlw {nbits w : Nat} {i : Instr} (hf : formatOfBits nbits = some .ctrlw)
    (h : decodeTableWord nbits w = some i) : i = decodeCommand (BitVec.ofNat 32 w) := by
  obtain ⟨rest, hd⟩ := decodeTableWord_some hf h
  have hcommand := decode_ctrlw (w := BitVec.ofNat 32 w) rfl []
  rw [List.append_nil] at hcommand
  exact (Prod.mk.inj (Except.ok.inj (hd.symm.trans hcommand))).1

/-- A table word of the format STEPW is the instruction of a microword. -/
theorem decodeTableWord_stepw {nbits w : Nat} {i : Instr} (hf : formatOfBits nbits = some .stepw)
    (h : decodeTableWord nbits w = some i) : ∃ m, decodeMicroword (BitVec.ofNat 16 w) = .ok m ∧ i = m.toInstr := by
  obtain ⟨rest, hd⟩ := decodeTableWord_some hf h
  obtain ⟨u, m, hbytes, hm, rfl⟩ := decode_stepw_ok hd
  have hcut : leBytes (BitVec.ofNat 16 w) 2 = leBytes u 2 ++ rest := by
    rw [← BitVec.setWidth_ofNat_of_le (show 16 ≤ 32 by omega), leBytes_setWidth _ (by omega)]
    exact hbytes
  exact ⟨m, by rw [eq_of_leBytes_two hcut, hm], rfl⟩

/-- A table word of the format FSM is the micro-step of a code. -/
theorem decodeTableWord_fsm {nbits w : Nat} {i : Instr} (hf : formatOfBits nbits = some .fsm)
    (h : decodeTableWord nbits w = some i) : decodeFsm (BitVec.ofNat 3 w) = .ok i := by
  obtain ⟨rest, hd⟩ := decodeTableWord_some hf h
  obtain ⟨c, hbytes, hc⟩ := decode_fsm_ok hd
  have hcut : leBytes (BitVec.ofNat 8 w) 1 = leBytes (c.setWidth 8) 1 ++ rest := by
    rw [← BitVec.setWidth_ofNat_of_le (show 8 ≤ 32 by omega), leBytes_setWidth _ (by omega)]
    exact hbytes
  have hbyte : BitVec.ofNat 8 w = c.setWidth 8 := by
    rw [leBytes_byte, leBytes_byte] at hcut
    exact (List.cons.inj hcut).1
  rw [← BitVec.setWidth_ofNat_of_le (show 3 ≤ 8 by omega), hbyte, BitVec.setWidth_setWidth_of_le _ (by omega),
    BitVec.setWidth_eq, hc]

/-- Settles O60: the word of R314 decodes to the microword the turn fetches. -/
theorem stepRunsDatapathTurn : Obligations.StepRunsDatapathTurn := by
  intro s u i hr hn hu hrom hi
  obtain ⟨m, hm, rfl⟩ := decodeTableWord_stepw rfl hi
  rw [BitVec.ofNat_toNat, BitVec.setWidth_eq] at hm
  exact (step_datapath hr hn).trans (datapathTurn_of_entry (s := popTurn s) hu hrom hm)

/-! ## A placed word: CTRLW -/

/-- The host's turn with a write is the write, with the transaction taken off the list. -/
theorem hostTurn_write {s : State} {addr : BitVec 16} {be : BitVec 4} {wdata : Word} {rest : List HostOp}
    (h : s.host = .write addr be wdata :: rest) : hostTurn s = busWrite addr be wdata { s with host := rest } := by
  simp [hostTurn, h]

/-- A placed CTRLW is the host's next write of CTRL. -/
theorem step_withFetchWord_ctrlw {nbits : Nat} (hf : formatOfBits nbits = some .ctrlw) (s : State) (w : Nat) :
    step (s.withFetchWord nbits w) =
      exec (decodeCommand (BitVec.ofNat 32 w)) { s.withFetchWord nbits w with sched := s.sched, host := s.host } := by
  simp only [State.withFetchWord, placeWord, hf]
  rw [step_host rfl rfl, hostTurn_write rfl, busWrite_ctrl rfl]
  rfl

/-! ## A placed word: STEPW -/

/-- The entry just stored in a ROM is the one of the step index above its address. -/
theorem romEntry_set {α : Type} (rom : Vector α 64) (a : Fin 64) (v : α) :
    romEntry (rom.set a.val v a.isLt) (BitVec.ofNat 7 (a.val + 1)) = some v := by
  have hi : (BitVec.ofNat 7 (a.val + 1)).toNat = a.val + 1 := by
    simp only [BitVec.toNat_ofNat]
    omega
  rw [romEntry_of_range _ (by omega) (by omega)]
  simp [hi]

/-- A word of R314 is placed at its own address. -/
theorem idxOf_eq_romAddress (s : State) {u : BitVec 16} (hu : u ∈ stepTable) :
    stepTable.idxOf u = (romAddress s u).val := by
  have hlt : stepTable.idxOf u < 64 := List.idxOf_lt_length_of_mem hu
  simp [romAddress, hlt]

/-- A placed STEPW is the entry that the placed step index names. -/
theorem microwordOperand_withFetchWord {nbits : Nat} (hf : formatOfBits nbits = some .stepw) (s : State) (w : Nat) :
    microwordOperand (s.withFetchWord nbits w) = some (BitVec.ofNat 16 w) := by
  simp only [State.withFetchWord, placeWord, hf]
  exact romEntry_set s.srom _ _

/-- A placed STEPW is run by a turn of the datapath alone. -/
theorem step_withFetchWord_stepw {nbits : Nat} (hf : formatOfBits nbits = some .stepw) (s : State) (w : Nat) :
    step (s.withFetchWord nbits w) =
      datapathTurn { s.withFetchWord nbits w with sched := s.sched, host := s.host } := by
  simp only [State.withFetchWord, placeWord, hf]
  exact step_datapath rfl rfl

/-- A placed STEPW of R314 is the entry of R314 that the placed step index names. -/
theorem romEntry_stepRom_withFetchWord {nbits w : Nat} (hf : formatOfBits nbits = some .stepw) (s : State)
    (hw : BitVec.ofNat 16 w ∈ stepTable) :
    romEntry stepRom (s.withFetchWord nbits w).i = some (BitVec.ofNat 16 w) := by
  simp only [State.withFetchWord, placeWord, hf]
  exact romEntry_stepRom_idxOf hw (idxOf_eq_romAddress s hw)

/-! ## A placed word: FSM -/

/-- The engine's turn is the micro-step that the code names. -/
theorem engineTurn_of_code {s : State} {i : Instr} (h : decodeFsm s.fsm = .ok i) : engineTurn s = exec i s := by
  have hrun : s.fsm ≠ Fsm.idle := by
    intro hidle
    rw [hidle] at h
    cases h
  simp [engineTurn, hrun, h]

/-- A placed code is the engine's next micro-step. -/
theorem step_withFetchWord_fsm {nbits w : Nat} {i : Instr} (hf : formatOfBits nbits = some .fsm) (s : State)
    (hi : decodeFsm (BitVec.ofNat 3 w) = .ok i) :
    step (s.withFetchWord nbits w) = exec i { s.withFetchWord nbits w with sched := s.sched, host := s.host } := by
  simp only [State.withFetchWord, placeWord, hf]
  rw [step_engine rfl rfl, engineTurn_of_code hi]
  rfl

/-- Settles O44, format by format; a microword that is not R314's faults at its fetch. -/
theorem stepRunsPlacedWord : Obligations.StepRunsPlacedWord := by
  intro s nbits w i hi
  cases hf : formatOfBits nbits with
  | none => simp [decodeTableWord, hf] at hi
  | some f =>
    cases f with
    | ctrlw =>
      obtain rfl := decodeTableWord_ctrlw hf hi
      exact ⟨fun _ => step_withFetchWord_ctrlw hf s w, fun hstep => by simp [decodeCommand_format] at hstep⟩
    | stepw =>
      obtain ⟨m, hm, rfl⟩ := decodeTableWord_stepw hf hi
      have hu := microwordOperand_withFetchWord hf s w
      rw [step_withFetchWord_stepw hf]
      refine ⟨fun hplace => ?_, fun _ hforeign => ?_⟩
      · have hw := hplace.resolve_left (not_not_intro (toInstr_format m))
        exact datapathTurn_of_entry hu (romEntry_stepRom_withFetchWord hf s hw) hm
      · exact datapathTurn_of_fetch_error (fetchMicroword_foreign hu (romEntry_stepRom_foreign hforeign _))
    | fsm =>
      have hc := decodeTableWord_fsm hf hi
      exact ⟨fun _ => step_withFetchWord_fsm hf s hc, fun hstep => by simp [(encode_of_decodeFsm hc).1] at hstep⟩

end Sys2Proof.Machine
end

section
/-! The step index outside 1..64 (R404): no ROM entry can be read, so the steps and ROUND give no result. -/

namespace Sys2Proof.Machine

/-- There is no constant at an index outside 1..64 (R404). -/
theorem constantOperand_outside {s : State} (h : s.i.toNat = 0 ∨ 64 < s.i.toNat) : constantOperand s = none :=
  romEntry_eq_none s.romT h

/-- Without a constant every step operation faults, whatever its function, word and amount. -/
theorem stepOperation_of_no_constant {s : State} (h : constantOperand s = none) (fn : AuxFn) (k : BitVec 4)
    (sh : BitVec 5) : stepOperation fn k sh s = .fault .romIndex := by
  simp [stepOperation, h]

/-- Settles O12: the four steps find no constant, and ROUND already faults at the fetch of its microword. -/
theorem romIndexOutsideFaults : Obligations.RomIndexOutsideFaults := by
  intro s k sh hi
  have hstep : ∀ fn, stepOperation fn k sh s = .fault .romIndex := fun fn =>
    stepOperation_of_no_constant (constantOperand_outside hi) fn k sh
  exact ⟨hstep .F, hstep .G, hstep .H, hstep .I, execRound_of_fetch_error (fetchMicroword_outside hi)⟩

end Sys2Proof.Machine
end

section
/-! The padding front-end: the padded message is cut before its length field, and `padByte` is compared with it part by
part (R420, R424). -/

namespace Sys2Proof.Machine

/-! ## The padded length and the block count (R421, R427) -/

/-- The padded length counts the message, the terminator, the zero fill and the length field. -/
theorem paddedLength_eq_parts (L : Nat) : paddedLength L = L + 1 + (119 - L % 64) % 64 + 8 := by
  unfold paddedLength blockCount
  omega

/-- The terminator and the length field fit in the block of the last message byte. -/
theorem blockCount_of_mod_le {L : Nat} (h : L % 64 ≤ 55) : blockCount L = L / 64 + 1 := by
  unfold blockCount
  omega

/-- The terminator and the length field spill into one more block. -/
theorem blockCount_of_lt_mod {L : Nat} (h : 55 < L % 64) : blockCount L = L / 64 + 2 := by
  unfold blockCount
  omega

/-- Settles O25: the two sides of the threshold, and the two lengths the source names. -/
theorem extraBlockAboveFiftyFive : Obligations.ExtraBlockAboveFiftyFive :=
  fun _ => ⟨blockCount_of_mod_le, blockCount_of_lt_mod, rfl, rfl⟩

/-! ## Little-endian bytes -/

@[simp] theorem leBytes_length {k : Nat} (w : BitVec k) (n : Nat) : (leBytes w n).length = n := by
  simp [leBytes]

@[simp] theorem getElem_leBytes {k : Nat} (w : BitVec k) {n j : Nat} (h : j < (leBytes w n).length) :
    (leBytes w n)[j] = byteOf w j := by
  simp [leBytes]

/-- The bytes above the lowest are those of the value shifted down by one byte. -/
theorem leBytes_succ {k : Nat} (w : BitVec k) (n : Nat) : leBytes w (n + 1) = byteOf w 0 :: leBytes (w >>> 8) n := by
  have hshift : ∀ j, byteOf w (j + 1) = byteOf (w >>> 8) j := fun j => by
    simp [byteOf, BitVec.extractLsb', ← Nat.shiftRight_add, Nat.mul_succ, Nat.add_comm]
  simp [leBytes, List.range_succ_eq_map, hshift]

/-- The lowest `n` bytes of a value, read little-endian, are the value modulo `256 ^ n`. -/
theorem foldr_leBytes {k : Nat} (w : BitVec k) (n : Nat) :
    (leBytes w n).foldr (fun b v => b.toNat + 256 * v) 0 = w.toNat % 256 ^ n := by
  induction n generalizing w with
  | zero => simp [leBytes, Nat.mod_one]
  | succ n ih =>
    rw [leBytes_succ, List.foldr_cons, ih, Nat.pow_succ', Nat.mod_mul]
    simp [byteOf, Nat.shiftRight_eq_div_pow]

/-! ## The parts of the padded message (R420) -/

/-- The padded message without its length field: the first two of the source's three steps. -/
def zeroFilledMessage (m : List Byte) : List Byte :=
  m ++ 0x80#8 :: List.replicate ((119 - m.length % 64) % 64) 0x00#8

/-- The third step appends the length field. -/
theorem paddedMessage_eq_append (m : List Byte) :
    paddedMessage m = zeroFilledMessage m ++ leBytes (BitVec.ofNat 64 (m.length * 8)) 8 := by
  simp [paddedMessage, zeroFilledMessage]

/-- The length field takes the last 8 bytes. -/
theorem zeroFilledMessage_length (m : List Byte) : (zeroFilledMessage m).length = paddedLength m.length - 8 := by
  rw [paddedLength_eq_parts]
  simp only [zeroFilledMessage, List.length_append, List.length_cons, List.length_replicate]
  omega

theorem paddedMessage_length (m : List Byte) : (paddedMessage m).length = paddedLength m.length := by
  have hparts := paddedLength_eq_parts m.length
  rw [paddedMessage_eq_append, List.length_append, zeroFilledMessage_length, leBytes_length]
  omega

/-- The last 8 bytes of the padded message are the length field. -/
theorem paddedMessage_drop_length_sub (m : List Byte) :
    (paddedMessage m).drop ((paddedMessage m).length - 8) = leBytes (BitVec.ofNat 64 (m.length * 8)) 8 := by
  rw [paddedMessage_length, paddedMessage_eq_append]
  exact List.drop_left' (zeroFilledMessage_length m)

/-- Settles O24: the lengths are R421's, and the last 8 bytes are the length field, read back. -/
theorem paddedMessageInvariants : Obligations.PaddedMessageInvariants := by
  intro m
  have hparts := paddedLength_eq_parts m.length
  rw [paddedMessage_drop_length_sub, foldr_leBytes, paddedMessage_length]
  refine ⟨Nat.mul_mod_right 64 _, by omega, by omega, ?_⟩
  rw [BitVec.toNat_ofNat]
  exact Nat.mod_mod _ _

/-! ## `padByte` on each part (R424) -/

section
variable {s : State} {j : Nat}

/-- A message byte held by the buffer. -/
theorem padByte_of_holdsMessage {m : List Byte} (hm : s.holdsMessage m) (hL : s.lenQ.toNat = m.length)
    (h : j < m.length) : padByte s j = .ok m[j] := by
  obtain ⟨hfit, hbytes⟩ := hm
  rw [padByte_message (by omega)]
  exact memRead1_ok (by omega) (hbytes j h)

theorem padByte_terminator (h : j = s.lenQ.toNat) : padByte s j = .ok 0x80#8 := by
  simp [padByte, h]

theorem padByte_zeroFill (hlo : s.lenQ.toNat < j) (hhi : j < paddedLength s.lenQ.toNat - 8) :
    padByte s j = .ok 0x00#8 := by
  simp [padByte, hhi, Nat.not_lt_of_gt hlo, Nat.ne_of_gt hlo]

theorem padByte_lengthField (hlo : paddedLength s.lenQ.toNat - 8 ≤ j) (hhi : j < paddedLength s.lenQ.toNat) :
    padByte s j = .ok (byteOf (lengthBits s.lenQ) (j - (paddedLength s.lenQ.toNat - 8))) := by
  have hparts := paddedLength_eq_parts s.lenQ.toNat
  have hmsg : ¬ j < s.lenQ.toNat := by omega
  have hterm : j ≠ s.lenQ.toNat := by omega
  simp [padByte, hmsg, hterm, Nat.not_lt_of_le hlo, hhi]

end

/-- The length in bits modulo 2^64 of a length that is the message's (R422). -/
theorem lengthBits_eq_ofNat {L : BitVec 64} {n : Nat} (h : L.toNat = n) : lengthBits L = BitVec.ofNat 64 (n * 8) := by
  apply BitVec.eq_of_toNat_eq
  simp [lengthBits, h]

/-- Below the length field `padByte` is the message, the terminator or the zero fill. -/
theorem padByte_eq_zeroFilledMessage {s : State} {m : List Byte} (hm : s.holdsMessage m)
    (hL : s.lenQ.toNat = m.length) {j : Nat} (h : j < (zeroFilledMessage m).length) :
    padByte s j = .ok (zeroFilledMessage m)[j] := by
  have hlen := zeroFilledMessage_length m
  rcases Nat.lt_trichotomy j m.length with hmsg | hterm | hzero
  · rw [padByte_of_holdsMessage hm hL hmsg]
    simp [zeroFilledMessage, List.getElem_append_left hmsg]
  · rw [padByte_terminator (by omega)]
    simp [zeroFilledMessage, hterm]
  · rw [padByte_zeroFill (by omega) (by rw [hL]; omega)]
    obtain ⟨n, rfl⟩ : ∃ n, j = m.length + (n + 1) := ⟨j - m.length - 1, by omega⟩
    simp [zeroFilledMessage]

/-- Settles O23: the bytes before the length field, then the length field. -/
theorem padByteIsSourcePadding : Obligations.PadByteIsSourcePadding := by
  intro s m hm hL
  refine ⟨paddedMessage_length m, fun j h => ?_⟩
  have hlen := zeroFilledMessage_length m
  have hend : j < paddedLength m.length := paddedMessage_length m ▸ h
  simp only [paddedMessage_eq_append]
  by_cases hbody : j < (zeroFilledMessage m).length
  · rw [List.getElem_append_left hbody]
    exact padByte_eq_zeroFilledMessage hm hL hbody
  · rw [List.getElem_append_right (by omega), getElem_leBytes, padByte_lengthField (by rw [hL]; omega) (by rwa [hL]),
      lengthBits_eq_ofNat hL, hL, hlen]

end Sys2Proof.Machine
end

section
/-! The micro-steps: LOAD's words are a block of the byte sequence it reads (R440 to R442), and what each micro-step leaves
unchanged. -/

namespace Sys2Proof.Machine

/-! ## LOAD completes -/

/-- The little-endian word at offset `off` of a byte sequence (R441). -/
def wordAt (bs : List Byte) (off : Nat) : Word :=
  le32 (bs.getD off 0) (bs.getD (off + 1) 0) (bs.getD (off + 2) 0) (bs.getD (off + 3) 0)

/-- A block's words stand at every fourth byte from `64 * n` on. -/
theorem blockWords_eq_wordAt (bs : List Byte) (n : Nat) :
    blockWords bs n = Vector.ofFn fun w => wordAt bs (64 * n + 4 * w.val) := rfl

/-- Four bytes read from a byte sequence make its word. -/
theorem readWord_eq_wordAt {byte : Nat → Except Fault Byte} {bs : List Byte}
    (hbyte : ∀ j : Nat, ∀ h : j < bs.length, byte j = .ok bs[j]) {off : Nat} (hoff : off + 3 < bs.length) :
    readWord byte off = .ok (wordAt bs off) := by
  have hget : ∀ j < bs.length, byte j = .ok (bs.getD j 0) := fun j h => by
    rw [hbyte j h, List.getD_eq_getElem _ _ h]
  exact readWord_ok (hget _ (by omega)) (hget _ (by omega)) (hget _ (by omega)) (hget _ (by omega))

/-- LOAD completes with block `n` of the byte sequence that its schedule words are read from. -/
theorem execLoad_blockWords {s : State} {byte : Nat → Except Fault Byte} {bs : List Byte} {n : Nat}
    (hword : ∀ w, scheduleWord s w = readWord byte (64 * n + 4 * w))
    (hbyte : ∀ j : Nat, ∀ h : j < bs.length, byte j = .ok bs[j]) (hfit : 64 * n + 64 ≤ bs.length) :
    execLoad s = .next { s with x := blockWords bs n, work := s.chain, i := 1#7, fsm := Fsm.round } := by
  rw [blockWords_eq_wordAt]
  exact execLoad_ok (g := fun w => wordAt bs (64 * n + 4 * w)) fun w hw =>
    (hword w).trans (readWord_eq_wordAt hbyte (by omega))

/-- A HASH reads its words from the padded message (R441). -/
theorem scheduleWord_hash {s : State} (hop : s.op = .hash) (w : Nat) :
    scheduleWord s w = readWord (padByte s) (64 * s.blk + 4 * w) :=
  if_pos hop

/-- A COMPRESS reads its words from the start of the raw buffer (R442). -/
theorem scheduleWord_compress {s : State} (hop : s.op = .compress) (w : Nat) :
    scheduleWord s w = readWord (memRead1 s) (4 * w) := by
  simp [scheduleWord, hop, memRead4]

/-- Settles O19: the padding front-end serves the padded message, which holds every block below the block count. -/
theorem loadHashDecodesPaddedBlock : Obligations.LoadHashDecodesPaddedBlock := by
  intro s m hop hm hL hblk
  obtain ⟨hlen, hpad⟩ := padByteIsSourcePadding s m hm hL
  refine execLoad_blockWords (scheduleWord_hash hop) hpad ?_
  rw [hlen, paddedLength]
  omega

/-- Settles O20: the buffer serves the message itself, which is one block. -/
theorem loadCompressDecodesRawBlock : Obligations.LoadCompressDecodesRawBlock := by
  intro s m hop hm h64
  obtain ⟨hfit, hbytes⟩ := hm
  refine execLoad_blockWords (byte := memRead1 s) (fun w => ?_) (fun j h => memRead1_ok (by omega) (hbytes j h)) (by omega)
  rw [scheduleWord_compress hop, Nat.mul_zero, Nat.zero_add]

/-! ## Frames -/

/-- ROUND writes the working registers, the step index and the sequencer's code, and nothing else (R474). -/
theorem execRound_writes {s t : State} (h : execRound s = .next t) :
    ∃ w i f, t = { s with work := w, i := i, fsm := f } := by
  obtain ⟨u, m, ti, -, -, -, -, rfl⟩ := execRound_next h
  unfold advanceRound
  split
  · exact ⟨_, s.i, _, rfl⟩
  · exact ⟨_, _, s.fsm, rfl⟩

/-- Settles O22, by the registers each micro-step writes: LOAD and ROUND by their inversion lemmas, FOLD and ASSEMBLE by
definition. -/
theorem microStepsFrame : Obligations.MicroStepsFrame := by
  intro s t i hi h
  rcases hi with rfl | rfl | rfl | rfl
  · obtain ⟨x, -, rfl⟩ := execLoad_next h
    simp [sameSurroundings, sameHostStorage, sameBuffer]
  · obtain ⟨w, i, f, rfl⟩ := execRound_writes h
    simp [sameSurroundings, sameHostStorage, sameBuffer]
  · obtain rfl := Host.Outcome.next.inj h
    simp [sameSurroundings, sameHostStorage, sameBuffer]
  · obtain rfl := Host.Outcome.next.inj h
    simp [sameSurroundings, sameHostStorage, sameBuffer]

end Sys2Proof.Machine
end

section
/-! The step datapath and the micro-steps that use it: rotation and the auxiliary functions bit by bit (R462 to R466), the
generic step (R467), ROUND's step of the table (R474) and FOLD's sums (R490). -/

namespace Sys2Proof.Machine

/-! ## Rotation (R462) -/

/-- An amount other than 0 takes the rule's formula. -/
theorem rotl_of_ne_zero (x : Word) {s : BitVec 5} (h : s ≠ 0#5) : rotl x s = x <<< s.toNat ||| x >>> (32 - s.toNat) :=
  if_neg h

/-- The model's rotation is the library's, at every amount. -/
theorem rotl_eq_rotateLeft (x : Word) (s : BitVec 5) : rotl x s = x.rotateLeft s.toNat := by
  by_cases h : s = 0#5
  · subst h
    simp [rotl, BitVec.rotateLeft_def, BitVec.ushiftRight_eq_zero]
  · rw [rotl_of_ne_zero x h, BitVec.rotateLeft_def, Nat.mod_eq_of_lt s.isLt]

/-- Bits at and above the amount come from below, the others wrap around. -/
theorem getLsbD_rotl (x : Word) (s : BitVec 5) {n : Nat} (hn : n < 32) :
    (rotl x s).getLsbD n = x.getLsbD ((n + 32 - s.toNat) % 32) := by
  have hs : s.toNat < 32 := s.isLt
  rw [rotl_eq_rotateLeft, BitVec.getLsbD_rotateLeft, Nat.mod_eq_of_lt hs]
  by_cases hwrap : n < s.toNat
  · have hbit : (n + 32 - s.toNat) % 32 = 32 - s.toNat + n := by omega
    simp [hwrap, hbit]
  · have hbit : (n + 32 - s.toNat) % 32 = n - s.toNat := by omega
    simp [hwrap, hbit, hn]

/-! ## The ROMs' entries are those of the source's tables -/

/-- An entry of the step ROM decodes to the per-round table's parameters for its index (R313, R314). -/
theorem decodeMicroword_of_romEntry_stepRom {i : BitVec 7} {u : BitVec 16} (h : romEntry stepRom i = some u) :
    decodeMicroword u = .ok (stepParams i.toNat) := by
  obtain ⟨hlo, hhi⟩ := romEntry_some_range h
  rw [romEntry_of_range _ hlo hhi] at h
  have hparams := stepRom_params ⟨i.toNat - 1, by omega⟩
  rwa [Option.some.inj h, Nat.sub_add_cancel hlo] at hparams

/-- An entry of the constant ROM is the word of the table one place below its index (R402). -/
theorem romEntry_constantRom {i : BitVec 7} (hlo : 1 ≤ i.toNat) (hhi : i.toNat ≤ 64) :
    romEntry constantRom i = some (constantTable.getD (i.toNat - 1) 0) := by
  have hplace : i.toNat - 1 < constantTable.length := by
    rw [show constantTable.length = 64 from rfl]
    omega
  rw [romEntry_of_range _ hlo hhi, List.getD_eq_getElem _ _ hplace]
  rfl

/-- The rotation cycles of R313 hold the sixteen amounts that R462 lists. -/
theorem stepParams_amount : ∀ n : Fin 64,
    (stepParams (n.val + 1)).s.toNat ∈ [4, 5, 6, 7, 9, 10, 11, 12, 14, 15, 16, 17, 20, 21, 22, 23] := by
  decide

/-- Settles O9: the rotation bit by bit, and the amounts of the table that the step ROM encodes. -/
theorem rotlMovesEveryBit : Obligations.RotlMovesEveryBit := by
  refine ⟨fun x s => ⟨if_pos rfl, rotl_of_ne_zero x, fun n => getLsbD_rotl x s⟩, fun i u m hu hm => ?_⟩
  obtain ⟨hlo, hhi⟩ := romEntry_some_range hu
  obtain rfl := Except.ok.inj (hm.symm.trans (decodeMicroword_of_romEntry_stepRom hu))
  have hamount := stepParams_amount ⟨i.toNat - 1, by omega⟩
  rwa [Nat.sub_add_cancel hlo] at hamount

/-! ## The auxiliary functions bit by bit (R463 to R466) -/

section
variable (x y z : Word) {n : Nat}

/-- F selects by the bit of `x`. -/
theorem getLsbD_auxF (hn : n < 32) :
    (auxF x y z).getLsbD n = if x.getLsbD n then y.getLsbD n else z.getLsbD n := by
  simp only [auxF, BitVec.getLsbD_or, BitVec.getLsbD_and, BitVec.getLsbD_not, hn]
  cases x.getLsbD n <;> simp

/-- G is F with the selecting word last. -/
theorem auxG_eq_auxF : auxG x y z = auxF z x y := by
  rw [auxG, auxF, BitVec.and_comm x, BitVec.and_comm y]

theorem getLsbD_auxH : (auxH x y z).getLsbD n = (x.getLsbD n ^^ y.getLsbD n ^^ z.getLsbD n) := by
  simp only [auxH, BitVec.getLsbD_xor]

theorem getLsbD_auxI (hn : n < 32) : (auxI x y z).getLsbD n = (y.getLsbD n ^^ (x.getLsbD n || !z.getLsbD n)) := by
  simp only [auxI, BitVec.getLsbD_xor, BitVec.getLsbD_or, BitVec.getLsbD_not, hn, decide_true, Bool.true_and]

end

/-- The parity of three bits is their exclusive or. -/
theorem xor_iff_parity : ∀ a b c : Bool, (a ^^ b ^^ c) = true ↔ (a.toNat + b.toNat + c.toNat) % 2 = 1 := by
  decide

/-- I's bit is 1 where `y` differs from `x | ~z`. -/
theorem xor_or_not_iff : ∀ x y z : Bool, (y ^^ (x || !z)) = true ↔ ¬ (y = true ↔ (x = true ∨ z = false)) := by
  decide

/-- Settles O10: the bits of the two selections, of the parity and of I. -/
theorem auxiliaryFunctionsBitByBit : Obligations.AuxiliaryFunctionsBitByBit := by
  intro x y z n hn
  refine ⟨getLsbD_auxF x y z hn, ?_, ?_, ?_⟩
  · rw [auxG_eq_auxF, getLsbD_auxF z x y hn]
  · rw [getLsbD_auxH]
    exact xor_iff_parity _ _ _
  · rw [getLsbD_auxI x y z hn]
    exact xor_or_not_iff _ _ _

/-! ## The step operations (R467 to R473) -/

/-- The constant at a step index 1..64 is the ROM's word one place below it. -/
theorem constantOperand_of_index {s : State} {n : Fin 64} (hi : s.i.toNat = n.val + 1) :
    constantOperand s = some s.romT[n.val] := by
  rw [constantOperand, romEntry_of_range _ (by omega) (by omega)]
  simp only [hi, Nat.add_sub_cancel]

/-- With its constant at hand a step operation completes, whatever its function, word and amount. -/
theorem stepOperation_of_constant {s : State} {ti : Word} (h : constantOperand s = some ti) (fn : AuxFn) (k : BitVec 4)
    (sh : BitVec 5) :
    stepOperation fn k sh s = .next { s with work := stepQuad fn sh (scheduleOperand s k) ti s.work } := by
  simp [stepOperation, h]

/-- Settles O11: the generic step at the constant of the index, for each of the four functions. -/
theorem stepOperationsResult : Obligations.StepOperationsResult := by
  intro s k sh n hi
  have hstep := fun fn => stepOperation_of_constant (constantOperand_of_index hi) fn k sh
  exact ⟨hstep .F, hstep .G, hstep .H, hstep .I⟩

/-- Settles O13: the four steps are one operation, which writes the working registers alone. -/
theorem stepOperationsFrame : Obligations.StepOperationsFrame := by
  intro s t k sh i hi h
  obtain ⟨fn, hstep⟩ : ∃ fn, stepOperation fn k sh s = .next t := by
    rcases hi with rfl | rfl | rfl | rfl
    exacts [⟨.F, h⟩, ⟨.G, h⟩, ⟨.H, h⟩, ⟨.I, h⟩]
  obtain ⟨ti, -, rfl⟩ := stepOperation_next hstep
  simp [sameSurroundings, sameHostStorage, sameBuffer]

/-! ## ROUND (R474) -/

/-- ROUND's last part by the value of the step index. -/
theorem advanceRound_eq (s : State) :
    advanceRound s =
      if s.i.toNat = 64 then { s with fsm := Fsm.fold } else { s with i := BitVec.ofNat 7 (s.i.toNat + 1) } := by
  have hlast : s.i = 64#7 ↔ s.i.toNat = 64 := BitVec.toNat_inj.symm
  have hnext : s.i + 1#7 = BitVec.ofNat 7 (s.i.toNat + 1) := BitVec.add_def _ _
  simp only [advanceRound, hlast, hnext]

/-- ROUND at an entry of R314 runs the instruction of its microword, then advances. -/
theorem execRound_of_exec {s t : State} {u : BitVec 16} {m : Microword} (hu : microwordOperand s = some u)
    (hrom : romEntry stepRom s.i = some u) (hm : decodeMicroword u = .ok m) (h : exec m.toInstr s = .next t) :
    execRound s = .next (advanceRound t) := by
  rw [exec_toInstr] at h
  simp [execRound, fetchMicroword_entry hu hrom hm, h]

/-- The instruction of a microword leaves the step index to ROUND. -/
theorem exec_toInstr_i {m : Microword} {s t : State} (h : exec m.toInstr s = .next t) : t.i = s.i := by
  rw [exec_toInstr, execMicroword_eq] at h
  obtain ⟨ti, -, rfl⟩ := stepOperation_next h
  rfl

/-- Settles O15: the table word is the microword ROUND fetches, and its instruction keeps the index that decides the advance. -/
theorem roundRunsFetchedMicroword : Obligations.RoundRunsFetchedMicroword := by
  intro s t u i hu hrom hi h
  obtain ⟨m, hm, rfl⟩ := decodeTableWord_stepw rfl hi
  rw [BitVec.ofNat_toNat, BitVec.setWidth_eq] at hm
  have hround : exec .round s = .next (advanceRound t) := execRound_of_exec hu hrom hm h
  rw [hround, advanceRound_eq, exec_toInstr_i h]

/-- With the ROMs as manufactured the microword and the constant of an index make its step of the source's table. -/
theorem execRound_refStep {s : State} (hT : s.romT = constantRom) (hS : s.srom = stepRom) (hlo : 1 ≤ s.i.toNat)
    (hhi : s.i.toNat ≤ 64) : execRound s = .next (advanceRound { s with work := refStep s.x s.work s.i.toNat }) := by
  have hrom := romEntry_of_range stepRom hlo hhi
  have hu : microwordOperand s = romEntry stepRom s.i := congrArg (romEntry · s.i) hS
  have hti : constantOperand s = some (constantTable.getD (s.i.toNat - 1) 0) := by
    rw [constantOperand, hT, romEntry_constantRom hlo hhi]
  exact execRound_of_entry (hu.trans hrom) hrom (decodeMicroword_of_romEntry_stepRom hrom) hti

/-- Settles O14: the step of the table, then the advance. -/
theorem roundPerformsStepOfTable : Obligations.RoundPerformsStepOfTable := by
  intro s hT hS hlo hhi
  have hround : exec .round s = .next (advanceRound { s with work := refStep s.x s.work s.i.toNat }) :=
    execRound_refStep hT hS hlo hhi
  rw [hround, advanceRound_eq]

/-! ## FOLD (R490) -/

/-- Each sum is taken modulo 2^32, by itself. -/
theorem addQuad_eq_ofNat (p q : Quad) :
    addQuad p q =
      { a := BitVec.ofNat 32 (p.a.toNat + q.a.toNat), b := BitVec.ofNat 32 (p.b.toNat + q.b.toNat)
        c := BitVec.ofNat 32 (p.c.toNat + q.c.toNat), d := BitVec.ofNat 32 (p.d.toNat + q.d.toNat) } := by
  simp only [addQuad, BitVec.add_def]

/-- Settles O17: FOLD by definition, with its sums spelled out. -/
theorem foldAddsAndMovesOn : Obligations.FoldAddsAndMovesOn := by
  intro s
  rw [← addQuad_eq_ofNat]
  rfl

end Sys2Proof.Machine
end

section
/-! The digest assembler: the places that write DIGEST, with ASSEMBLE's whole effect (R521, R525), and the order of the 16
digest bytes (R522). -/

namespace Sys2Proof.Machine

/-! ## The places that write DIGEST (R525) -/

/-- Settles O18, by definition: ASSEMBLE is one update of DIGEST, STATUS and `fsm`. -/
theorem assemblePublishesChain : Obligations.AssemblePublishesChain := fun _ => rfl

/-- No CTRL word writes DIGEST, accepted or not. -/
theorem command_digest {s t : State} {w : Word} (h : exec (decodeCommand w) s = .next t) : t.digest = s.digest := by
  rcases command_cases h with rfl | ⟨code, -, rfl⟩ | ⟨-, rfl⟩ | ⟨-, rfl⟩ | ⟨-, -, rfl⟩
  all_goals rfl

/-- No host transaction writes DIGEST (R124). -/
theorem hostTurn_digest {s t : State} (h : hostTurn s = .next t) : t.digest = s.digest := by
  rcases hostTurn_cases h with ⟨rest, w, hx⟩ | ⟨-, rest, v, rfl⟩ | ⟨-, rest, v, rfl⟩ |
    ⟨-, rest, be, wdata, off, -, -, rfl⟩ | ⟨rest, reads, draws, rfl⟩
  · exact command_digest (s := { s with host := rest }) hx
  all_goals rfl

/-- The engine's turn writes DIGEST only by ASSEMBLE. -/
theorem engineTurn_digest {s t : State} (h : engineTurn s = .next t) :
    t.digest = s.digest ∨ (s.fsm = Fsm.assemble ∧ t.digest = s.chain) := by
  rcases engineTurn_cases h with ⟨-, rfl⟩ | ⟨-, hx⟩ | ⟨-, hx⟩ | ⟨-, hx⟩ | ⟨hf, hx⟩
  · exact .inl rfl
  · obtain ⟨x, -, rfl⟩ := execLoad_next hx
    exact .inl rfl
  · obtain ⟨w, i, f, rfl⟩ := execRound_writes hx
    exact .inl rfl
  · obtain rfl := Host.Outcome.next.inj hx
    exact .inl rfl
  · obtain rfl := Host.Outcome.next.inj hx
    exact .inr ⟨hf, rfl⟩

/-- Settles O52, by the cases of a step. -/
theorem digestChangesOnlyAtAssemble : Obligations.DigestChangesOnlyAtAssemble := by
  intro s t h hne
  rcases step_cases h with ⟨u, rfl, -, -, -, hr⟩ | ⟨-, rfl⟩ | ⟨-, -, hx⟩ | ⟨-, hn, hx⟩ | ⟨-, -, hx⟩
  · exact .inr ⟨hr, resetAction_digest u⟩
  · exact absurd rfl hne
  · exact absurd (hostTurn_digest hx) hne
  · exact .inl ⟨hn, (engineTurn_digest hx).resolve_left hne⟩
  · obtain ⟨w, rfl⟩ := datapathTurn_cases hx
    exact absurd rfl hne

/-! ## The digest bytes (R522) -/

@[simp] theorem digestBytes_length (q : Quad) : (digestBytes q).length = 16 := by
  simp [digestBytes]

/-- The bytes of the first word of a byte sequence. -/
theorem getElem?_leBytes_append {k : Nat} (w : BitVec k) (bs : List Byte) {n j : Nat} (hj : j < n) :
    (leBytes w n ++ bs)[j]? = some (byteOf w j) := by
  have hlen : j < (leBytes w n).length := by simpa using hj
  rw [List.getElem?_append_left hlen, List.getElem?_eq_getElem hlen, getElem_leBytes]

/-- The bytes behind the first word of a byte sequence. -/
theorem getElem?_leBytes_append_add {k : Nat} (w : BitVec k) (bs : List Byte) (n j : Nat) :
    (leBytes w n ++ bs)[n + j]? = bs[j]? := by
  rw [List.getElem?_append_right (by simp), leBytes_length, Nat.add_sub_cancel_left]

/-- Byte `4n + j` of the digest is byte `j` of DIGEST`n`, as the host reads it: the `n` words before it are skipped. -/
theorem getElem?_digestBytes (q : Quad) {n j : Nat} (hn : n < 4) (hj : j < 4) :
    (digestBytes q)[4 * n + j]? = some (byteOf (digestWord q n) j) := by
  have hwords : digestBytes q = leBytes q.a 4 ++ (leBytes q.b 4 ++ (leBytes q.c 4 ++ (leBytes q.d 4 ++ []))) := by
    simp [digestBytes]
  have hregister : n = 0 ∨ n = 1 ∨ n = 2 ∨ n = 3 := by omega
  rw [hwords]
  rcases hregister with rfl | rfl | rfl | rfl
  · rw [Nat.mul_zero, Nat.zero_add]
    exact getElem?_leBytes_append q.a _ hj
  · rw [getElem?_leBytes_append_add]
    exact getElem?_leBytes_append q.b _ hj
  · rw [show 4 * 2 + j = 4 + (4 + j) by omega]
    simp only [getElem?_leBytes_append_add]
    exact getElem?_leBytes_append q.c _ hj
  · rw [show 4 * 3 + j = 4 + (4 + (4 + j)) by omega]
    simp only [getElem?_leBytes_append_add]
    exact getElem?_leBytes_append q.d _ hj

/-- Settles O59: each conjunct is the byte law at one of the four registers. -/
theorem digestBytesInRegisterOrder : Obligations.DigestBytesInRegisterOrder := by
  intro q
  refine ⟨digestBytes_length q, fun j hj => ⟨?_, ?_, ?_, ?_⟩⟩
  · have hfirst := getElem?_digestBytes q (n := 0) (by decide) hj
    rwa [Nat.mul_zero, Nat.zero_add] at hfirst
  · exact getElem?_digestBytes q (n := 1) (by decide) hj
  · exact getElem?_digestBytes q (n := 2) (by decide) hj
  · exact getElem?_digestBytes q (n := 3) (by decide) hj

end Sys2Proof.Machine
end

section
/-! Commands and turns: what each command does when it is accepted (R544 to R550), that a turn outside reset runs the
instruction its word or code names, and the edges of the sequencer's transition graph (R561). -/

namespace Sys2Proof.Machine

/-! ## Acceptance -/

/-- Settles O26, by definition: NOP has no check and no effect. -/
theorem nopChangesNothing : Obligations.NopChangesNothing := fun _ => rfl

/-- With BUSY = 1 INIT is rejected (R605). -/
theorem execInit_busy {s : State} (hb : s.status.busy = true) : execInit s = .next (reject .busy s) := if_pos hb

/-- With BUSY = 0 INIT is accepted (R545). -/
theorem execInit_idle {s : State} (hb : s.status.busy = false) :
    execInit s = .next { accept .init s with chain := initialValue, fsm := Fsm.assemble } :=
  if_neg (Bool.eq_false_iff.mp hb)

/-- Settles O27: the rejection, the acceptance, and the ASSEMBLE that the acceptance names. -/
theorem initLoadsAndPublishesInitialValue : Obligations.InitLoadsAndPublishesInitialValue := fun _ =>
  ⟨execInit_busy, fun hb => ⟨_, _, execInit_idle hb, rfl, engineTurn_assemble rfl, rfl⟩⟩

/-- Settles O28: with BUSY = 0 the check passes. -/
theorem compressAccepted : Obligations.CompressAccepted := fun _ hb => if_neg (Bool.eq_false_iff.mp hb)

/-- `{LEN_HI, LEN_LO}` as a number (R123, R304). -/
theorem lengthOperand_toNat (s : State) : (lengthOperand s).toNat = s.lenHi.toNat * 2 ^ 32 + s.lenLo.toNat := by
  rw [lengthOperand, BitVec.toNat_append, ← Nat.shiftLeft_add_eq_or_of_lt s.lenLo.isLt, Nat.shiftLeft_eq]

/-- With BUSY = 0 and a length that fits the buffer HASH is accepted (R550). -/
theorem execHash_accepted {s : State} (hb : s.status.busy = false) (hL : (lengthOperand s).toNat ≤ s.msgBytes) :
    execHash s = .next
      { accept .hash s with
        lenQ := lengthOperand s
        chain := initialValue
        blk := 0
        nblk := blockCount (lengthOperand s).toNat
        fsm := Fsm.load } := by
  simp [execHash, hb, Nat.not_lt_of_le hL]

/-- Settles O29: both checks pass, and the latched length is the number in LEN. -/
theorem hashAccepted : Obligations.HashAccepted := by
  intro s hb hL
  have hlen := lengthOperand_toNat s
  have hx : exec .hash s = _ := execHash_accepted hb (hlen.trans_le hL)
  rw [hx, ← hlen, BitVec.ofNat_toNat, BitVec.setWidth_eq]
  rfl

/-! ## A turn runs the instruction its word or code names -/

/-- Settles O42: the turn is the write, and the write of CTRL issues the command of its data. -/
theorem stepRunsHostCommand : Obligations.StepRunsHostCommand := by
  intro s addr be wdata rest hr hn hhost haddr hbe
  have hturn : hostTurn (popTurn s) = busWrite addr be wdata { popTurn s with host := rest } := hostTurn_write hhost
  have hissue := (ctrlWriteIssuesCommand { popTurn s with host := rest } addr be wdata haddr).1 hbe
  exact (step_host hr hn).trans (hturn.trans hissue)

/-- The codes 5 to 7 name no micro-step (R111). -/
theorem decodeFsm_unreachable : ∀ c : BitVec 3, 5 ≤ c.toNat → decodeFsm c = .error .fsmUnreachable := by
  decide

/-- On a code 5 to 7 the engine's turn is a fault. -/
theorem engineTurn_unreachable {s : State} (h : 5 ≤ s.fsm.toNat) : engineTurn s = .fault .unreachableFsm := by
  have hrun : s.fsm ≠ Fsm.idle := fun hidle => by simp [hidle] at h
  simp [engineTurn, hrun, decodeFsm_unreachable _ h]

/-- Settles O43: the engine's turn at a code that names a micro-step, in IDLE, and at the other codes. -/
theorem stepRunsSequencerMicroStep : Obligations.StepRunsSequencerMicroStep := by
  intro s hr hn
  rw [step_engine hr hn]
  refine ⟨fun i hi => ?_, fun hf => engineTurn_idle (s := popTurn s) hf,
    fun hf => engineTurn_unreachable (s := popTurn s) hf⟩
  have hcode := decodeTableWord_fsm rfl hi
  rw [BitVec.ofNat_toNat, BitVec.setWidth_eq] at hcode
  exact engineTurn_of_code (s := popTurn s) hcode

/-! ## The edges of the transition graph (R561) -/

/-- Issuing a CTRL word leaves the sequencer, or starts an accepted command from IDLE. -/
theorem command_fsm {s t : State} {w : Word} (hs : s.Inv) (h : exec (decodeCommand w) s = .next t) :
    t.fsm = s.fsm ∨ (s.fsm = Fsm.idle ∧ t.op = .init ∧ t.fsm = Fsm.assemble) ∨
    (s.fsm = Fsm.idle ∧ (t.op = .compress ∨ t.op = .hash) ∧ t.fsm = Fsm.load) := by
  rcases command_cases h with rfl | ⟨code, -, rfl⟩ | ⟨hb, rfl⟩ | ⟨hb, rfl⟩ | ⟨hb, -, rfl⟩
  · exact .inl rfl
  · exact .inl rfl
  · exact .inr (.inl ⟨inv_fsm_of_not_busy hs hb, rfl, rfl⟩)
  · exact .inr (.inr ⟨inv_fsm_of_not_busy hs hb, .inl rfl, rfl⟩)
  · exact .inr (.inr ⟨inv_fsm_of_not_busy hs hb, .inr rfl, rfl⟩)

/-- The host's turn moves the sequencer only by issuing a command. -/
theorem hostTurn_fsm {s t : State} (hs : s.Inv) (h : hostTurn s = .next t) :
    t.fsm = s.fsm ∨ (s.fsm = Fsm.idle ∧ t.op = .init ∧ t.fsm = Fsm.assemble) ∨
    (s.fsm = Fsm.idle ∧ (t.op = .compress ∨ t.op = .hash) ∧ t.fsm = Fsm.load) := by
  rcases hostTurn_cases h with ⟨rest, w, hx⟩ | ⟨-, rest, v, rfl⟩ | ⟨-, rest, v, rfl⟩ |
    ⟨-, rest, be, wdata, off, -, -, rfl⟩ | ⟨rest, reads, draws, rfl⟩
  · exact command_fsm (s := { s with host := rest }) { hs with } hx
  all_goals exact .inl rfl

/-- ROUND's edges: to the next step index, or from 64 to FOLD. -/
theorem execRound_edge {s t : State} (hi : 1 ≤ s.i.toNat ∧ s.i.toNat ≤ 64) (h : execRound s = .next t) :
    (s.i.toNat < 64 → t.fsm = s.fsm ∧ t.i.toNat = s.i.toNat + 1) ∧ (s.i.toNat = 64 → t.fsm = Fsm.fold ∧ t.i = s.i) := by
  obtain ⟨w, ⟨hlast, rfl⟩ | ⟨hlt, rfl, hnext⟩⟩ := execRound_cases h hi
  · exact ⟨fun hlt => absurd hlast (Nat.ne_of_lt hlt), fun _ => ⟨rfl, rfl⟩⟩
  · exact ⟨fun _ => ⟨rfl, hnext⟩, fun hlast => absurd hlast (Nat.ne_of_lt hlt)⟩

/-- FOLD's edges: to LOAD of the next block while one is left, else to ASSEMBLE. -/
theorem execFold_edge {s t : State} (h : execFold s = .next t) :
    (s.blk + 1 < s.nblk → t.fsm = Fsm.load ∧ t.blk = s.blk + 1) ∧ (s.blk + 1 = s.nblk → t.fsm = Fsm.assemble) := by
  obtain rfl := Host.Outcome.next.inj h
  exact ⟨fun hmore => ⟨if_pos hmore, rfl⟩, fun hlast => if_neg (by omega)⟩

/-- A step at an edge of `clk` with `rst = 1` is a reset action. -/
theorem step_reset {s t : State} (h : step s = .next t)
    (hr : nextTurn s = .rst true ∨ (s.rst = true ∧ nextTurn s ≠ .rst false)) : ∃ u, t = resetAction u := by
  rcases step_cases h with ⟨u, hu, -⟩ | ⟨hn, -⟩ | ⟨hlow, hn, -⟩ | ⟨hlow, hn, -⟩ | ⟨hlow, hn, -⟩
  · exact ⟨u, hu⟩
  · simp [hn] at hr
  all_goals simp [hn, hlow] at hr

/-- Settles O49: the engine's edges micro-step by micro-step, the host's by the command it issues, and reset. -/
theorem sequencerFollowsTransitionGraph : Obligations.SequencerFollowsTransitionGraph := by
  intro s t hs h
  refine ⟨fun hr hn => ?_, fun hr hn => ?_, fun hr => ?_⟩
  · have hx : engineTurn (popTurn s) = .next t := (step_engine hr hn).symm.trans h
    have hround (hf : s.fsm = Fsm.round) :=
      execRound_edge (s := popTurn s) (hs.roundIndex hf) ((engineTurn_round (s := popTurn s) hf).symm.trans hx)
    have hfold (hf : s.fsm = Fsm.fold) := execFold_edge ((engineTurn_fold (s := popTurn s) hf).symm.trans hx)
    refine ⟨fun hf => ?_, fun hf => ?_, fun hf hlt => ?_, fun hf => (hround hf).2, fun hf => (hfold hf).1,
      fun hf => (hfold hf).2, fun hf => ?_⟩
    · rw [engineTurn_idle (s := popTurn s) hf] at hx
      exact Host.Outcome.next.inj hx ▸ hf
    · rw [engineTurn_load (s := popTurn s) hf] at hx
      obtain ⟨x, -, rfl⟩ := execLoad_next hx
      exact ⟨rfl, rfl⟩
    · obtain ⟨hfsm, hi⟩ := (hround hf).1 hlt
      exact ⟨hfsm.trans hf, hi⟩
    · rw [engineTurn_assemble (s := popTurn s) hf] at hx
      exact Host.Outcome.next.inj hx ▸ rfl
  · exact hostTurn_fsm (s := popTurn s) { hs with } ((step_host hr hn).symm.trans h)
  · obtain ⟨u, rfl⟩ := step_reset h hr
    exact resetAction_fsm u

end Sys2Proof.Machine
end

section
/-! A running command, micro-step by micro-step: `State.Runs job n` says where the engine stands `n` micro-steps after the
acceptance of a command whose work is `job`. The engine's turn goes on by one micro-step, the host's turn leaves it where it
is (R214), and the micro-step after the last block publishes the job's result (R551, R567). -/

namespace Sys2Proof.Machine

/-! ## Jobs -/

/-- The work of a COMPRESS or a HASH: the bytes its blocks are cut from, their number, and the chaining value they start from. -/
structure Job where
  bytes : List Byte
  blocks : Nat
  start : Quad

/-- A COMPRESS folds one raw block into the chaining registers as they stand (R547). -/
def compressJob (m : List Byte) (cv : Quad) : Job := { bytes := m, blocks := 1, start := cv }

/-- A HASH folds the padded message into the IV (R550). -/
def hashJob (m : List Byte) : Job := { bytes := paddedMessage m, blocks := blockCount m.length, start := initialValue }

/-- The chaining value after the first `n` blocks. -/
def Job.chainAfter (job : Job) (n : Nat) : Quad := chainBlocks job.bytes job.start n

/-- What the job leaves in `A..D`. -/
def Job.result (job : Job) : Quad := job.chainAfter job.blocks

/-- LOAD, 64 times ROUND and FOLD for each block: the micro-steps before ASSEMBLE. -/
def Job.microSteps (job : Job) : Nat := 66 * job.blocks

/-- The job of a COMPRESS gives the compression function of its block (R491). -/
theorem compressJob_result (m : List Byte) (cv : Quad) : (compressJob m cv).result = compressBlock cv (blockWords m 0) := rfl

/-- The job of a HASH gives the digest of its message (R551). -/
theorem hashJob_result (m : List Byte) : (hashJob m).result = digestOf m := rfl

/-- The command registers and the buffer are those of a job. -/
inductive State.HasJob (s : State) : Job → Prop
  | compress {m : List Byte} {cv : Quad} (hop : s.op = .compress) (hm : s.holdsMessage m) (hlen : m.length = 64)
      (hblocks : s.nblk = 1) : s.HasJob (compressJob m cv)
  | hash {m : List Byte} (hop : s.op = .hash) (hm : s.holdsMessage m) (hlen : s.lenQ.toNat = m.length)
      (hblocks : s.nblk = blockCount m.length) : s.HasJob (hashJob m)

/-- The block count register holds the job's number of blocks. -/
theorem hasJob_nblk {s : State} {job : Job} (h : s.HasJob job) : s.nblk = job.blocks := by
  cases h with
  | compress _ _ _ hblocks => exact hblocks
  | hash _ _ _ hblocks => exact hblocks

/-- LOAD of a job completes with the block that `blk` names (R440). -/
theorem hasJob_execLoad {s : State} {job : Job} (h : s.HasJob job) (hblk : s.blk < s.nblk) :
    execLoad s = .next { s with x := blockWords job.bytes s.blk, work := s.chain, i := 1#7, fsm := Fsm.round } := by
  cases h with
  | @compress m _ hop hm hlen hblocks =>
    have hzero : s.blk = 0 := by omega
    have hload := loadCompressDecodesRawBlock s m hop hm hlen
    rwa [← hzero] at hload
  | hash hop hm hlen hblocks => exact loadHashDecodesPaddedBlock s _ hop hm hlen (hblocks ▸ hblk)

/-- The engine's turn leaves the command registers and the parameter. -/
theorem engineTurn_command {s t : State} (h : engineTurn s = .next t) :
    t.op = s.op ∧ t.nblk = s.nblk ∧ t.lenQ = s.lenQ ∧ t.msgBytes = s.msgBytes := by
  rcases engineTurn_cases h with ⟨-, rfl⟩ | ⟨-, hx⟩ | ⟨-, hx⟩ | ⟨-, hx⟩ | ⟨-, hx⟩
  · exact ⟨rfl, rfl, rfl, rfl⟩
  · obtain ⟨x, -, rfl⟩ := execLoad_next hx
    exact ⟨rfl, rfl, rfl, rfl⟩
  · obtain ⟨w, i, f, rfl⟩ := execRound_writes hx
    exact ⟨rfl, rfl, rfl, rfl⟩
  · obtain rfl := Host.Outcome.next.inj hx
    exact ⟨rfl, rfl, rfl, rfl⟩
  · obtain rfl := Host.Outcome.next.inj hx
    exact ⟨rfl, rfl, rfl, rfl⟩

/-- The engine's turn keeps the job. -/
theorem hasJob_engineTurn {s t : State} {job : Job} (h : s.HasJob job) (hx : engineTurn s = .next t) :
    t.HasJob job := by
  obtain ⟨hop', hnblk, hlenQ, hcap⟩ := engineTurn_command hx
  have hholds : ∀ {m}, s.holdsMessage m → t.holdsMessage m := fun hm => by
    simpa only [State.holdsMessage, hcap, (engineTurn_hostStorage hx).1] using hm
  cases h with
  | compress hop hm hlen hblocks => exact .compress (hop'.trans hop) (hholds hm) hlen (hnblk.trans hblocks)
  | hash hop hm hlen hblocks =>
    exact .hash (hop'.trans hop) (hholds hm) (hlenQ ▸ hlen) (hnblk.trans hblocks)

/-! ## Where the engine stands -/

/-- The datapath after `n` micro-steps of a job, one case for each code of the sequencer. -/
inductive State.Progress (s : State) (job : Job) (n : Nat) : Prop
  | load (hf : s.fsm = Fsm.load) (hchain : s.chain = job.chainAfter s.blk) (hn : n = 66 * s.blk)
  | round (hf : s.fsm = Fsm.round) (hchain : s.chain = job.chainAfter s.blk) (hx : s.x = blockWords job.bytes s.blk)
      (hwork : s.work = refSteps s.x s.chain (s.i.toNat - 1)) (hn : n = 66 * s.blk + s.i.toNat)
  | fold (hf : s.fsm = Fsm.fold) (hchain : s.chain = job.chainAfter s.blk) (hx : s.x = blockWords job.bytes s.blk)
      (hwork : s.work = refSteps s.x s.chain 64) (hn : n = 66 * s.blk + 65)
  | assemble (hf : s.fsm = Fsm.assemble) (hchain : s.chain = job.result) (hn : n = 66 * job.blocks)

/-- A command runs its job, `n` micro-steps after its acceptance. -/
structure State.Runs (s : State) (job : Job) (n : Nat) : Prop where
  inv : s.Inv
  hasJob : s.HasJob job
  progress : s.Progress job n

section
variable {s : State} {job : Job}

/-- At LOAD of block 0, with its starting value in the chaining registers, a job has run no micro-step. -/
theorem runs_zero (hs : s.Inv) (hjob : s.HasJob job) (hf : s.fsm = Fsm.load) (hblk : s.blk = 0)
    (hchain : s.chain = job.start) : s.Runs job 0 where
  inv := hs
  hasJob := hjob
  progress := .load hf (by rw [hblk]; exact hchain) (by omega)

/-- While a command runs the sequencer is not in IDLE. -/
theorem runs_not_idle {n : Nat} (h : s.Runs job n) : s.fsm ≠ Fsm.idle := by
  cases h.progress with
  | load hf | round hf | fold hf | assemble hf => simp [hf]

/-- After the micro-steps of its last block a job is at ASSEMBLE, with its result in the chaining registers. -/
theorem runs_at_assemble (h : s.Runs job job.microSteps) : s.fsm = Fsm.assemble ∧ s.chain = job.result := by
  obtain ⟨hs, hjob, hprogress⟩ := h
  have hblock (hin : s.inBlock) : 66 * s.blk + 66 ≤ job.microSteps := by
    have := hs.blockIndex hin
    rw [hasJob_nblk hjob] at this
    rw [Job.microSteps]
    omega
  cases hprogress with
  | load hf _ hn =>
    have := hblock (.inl hf)
    omega
  | round hf _ _ _ hn =>
    have := hblock (.inr (.inl hf))
    have := hs.roundIndex hf
    omega
  | fold hf _ _ _ hn =>
    have := hblock (.inr (.inr hf))
    omega
  | assemble hf hchain => exact ⟨hf, hchain⟩

/-! ## The engine's turn goes on by one micro-step -/

/-- LOAD of a block. -/
theorem progress_execLoad (hs : s.Inv) (hjob : s.HasJob job) (hf : s.fsm = Fsm.load)
    (hchain : s.chain = job.chainAfter s.blk) : ∃ t, execLoad s = .next t ∧ t.Progress job (66 * s.blk + 1) :=
  ⟨_, hasJob_execLoad hjob (hs.blockIndex (.inl hf)), .round rfl hchain rfl rfl rfl⟩

/-- ROUND: one step of the source's table, then the next step index or FOLD. -/
theorem progress_execRound (hs : s.Inv) (hf : s.fsm = Fsm.round) (hchain : s.chain = job.chainAfter s.blk)
    (hx : s.x = blockWords job.bytes s.blk) (hwork : s.work = refSteps s.x s.chain (s.i.toNat - 1)) :
    ∃ t, execRound s = .next t ∧ t.Progress job (66 * s.blk + s.i.toNat + 1) := by
  obtain ⟨hlo, hhi⟩ := hs.roundIndex hf
  have hstep : refStep s.x s.work s.i.toNat = refSteps s.x s.chain s.i.toNat := by
    obtain ⟨n, hn⟩ := Nat.exists_eq_add_of_le' hlo
    rw [hwork, hn]
    rfl
  refine ⟨_, execRound_refStep hs.constants hs.steps hlo hhi, ?_⟩
  rw [hstep, advanceRound_eq]
  by_cases hlast : s.i.toNat = 64
  · rw [if_pos hlast]
    exact .fold rfl hchain hx (by rw [hlast]) (by rw [hlast])
  · have hnext : (BitVec.ofNat 7 (s.i.toNat + 1)).toNat = s.i.toNat + 1 := by
      rw [BitVec.toNat_ofNat]
      omega
    rw [if_neg hlast]
    exact .round hf hchain hx (by rw [hnext, Nat.add_sub_cancel]) (by rw [hnext, Nat.add_assoc])

/-- FOLD: the next block's LOAD, or ASSEMBLE. -/
theorem progress_execFold (hs : s.Inv) (hjob : s.HasJob job) (hf : s.fsm = Fsm.fold)
    (hchain : s.chain = job.chainAfter s.blk) (hx : s.x = blockWords job.bytes s.blk)
    (hwork : s.work = refSteps s.x s.chain 64) :
    ∃ t, execFold s = .next t ∧ t.Progress job (66 * s.blk + 65 + 1) := by
  have hfolded : addQuad s.chain s.work = job.chainAfter (s.blk + 1) := by
    rw [hwork, hx, hchain]
    rfl
  refine ⟨_, rfl, ?_⟩
  by_cases hmore : s.blk + 1 < s.nblk
  · exact .load (if_pos hmore) hfolded rfl
  · have hlast : s.blk + 1 = job.blocks := by
      have := hs.blockIndex (.inr (.inr hf))
      have := hasJob_nblk hjob
      omega
    exact .assemble (if_neg hmore) (hfolded.trans (congrArg job.chainAfter hlast)) (by omega)

/-- Before the job's end the engine's turn is its next micro-step. -/
theorem engineTurn_runs {n : Nat} (h : s.Runs job n) (hn : n < job.microSteps) :
    ∃ t, engineTurn s = .next t ∧ t.Runs job (n + 1) := by
  obtain ⟨hs, hjob, hprogress⟩ := h
  obtain ⟨t, ht, hnext⟩ : ∃ t, engineTurn s = .next t ∧ t.Progress job (n + 1) := by
    cases hprogress with
    | load hf hchain hpos =>
      rw [engineTurn_load hf, hpos]
      exact progress_execLoad hs hjob hf hchain
    | round hf hchain hx hwork hpos =>
      rw [engineTurn_round hf, hpos]
      exact progress_execRound hs hf hchain hx hwork
    | fold hf hchain hx hwork hpos =>
      rw [engineTurn_fold hf, hpos]
      exact progress_execFold hs hjob hf hchain hx hwork
    | assemble _ _ hpos => exact absurd hpos (Nat.ne_of_lt hn)
  exact ⟨t, ht, inv_engineTurn hs ht, hasJob_engineTurn hjob ht, hnext⟩

/-! ## Steps of a run -/

/-- ASSEMBLE has published a job's result and ended the command (R521, R524). -/
structure State.Published (t : State) (job : Job) : Prop where
  digest : t.digest = job.result
  chain : t.chain = job.result
  idle : t.fsm = Fsm.idle
  notBusy : t.status.busy = false
  done : t.status.done = true

/-- At the job's end the engine's turn publishes the result. -/
theorem engineTurn_publishes (h : s.Runs job job.microSteps) : ∃ t, engineTurn s = .next t ∧ t.Published job := by
  obtain ⟨hf, hchain⟩ := runs_at_assemble h
  exact ⟨_, engineTurn_assemble hf, hchain, hchain, rfl, rfl, rfl⟩

/-- A running job does not depend on the host's side. -/
theorem runs_of_sameDatapath {t : State} {n : Nat} (h : s.Runs job n) (hsame : sameDatapath s t) (ht : t.Inv) :
    t.Runs job n := by
  refine ⟨ht, ?_, ?_⟩ <;> rw [eq_withHostSideOf hsame]
  · cases h.hasJob with
    | compress hop hm hlen hblocks => exact .compress hop hm hlen hblocks
    | hash hop hm hlen hblocks => exact .hash hop hm hlen hblocks
  · cases h.progress with
    | load hf hchain hn => exact .load hf hchain hn
    | round hf hchain hx hwork hn => exact .round hf hchain hx hwork hn
    | fold hf hchain hx hwork hn => exact .fold hf hchain hx hwork hn
    | assemble hf hchain hn => exact .assemble hf hchain hn

/-- Taking the turn off its list leaves the job. -/
theorem runs_popTurn {n : Nat} (h : s.Runs job n) : (popTurn s).Runs job n :=
  runs_of_sameDatapath h (by simp [sameDatapath]) { h.inv with }

/-- The engine's turn leaves the host's side. -/
theorem engineTurn_hostSide {t : State} (h : engineTurn s = .next t) : withHostSideOf t s = t :=
  Host.Outcome.next.inj ((engineTurn_withHostSideOf s h).symm.trans h)

/-- A step of the host while a job runs leaves it where it is (R214). -/
theorem step_host_runs {n : Nat} (h : s.Runs job n) (hr : s.rst = false) (hn : nextTurn s = .host) :
    ∃ t, step s = .next t ∧ t.Runs job n ∧ t.rst = false ∧ t.sched = s.sched.tail := by
  have hbusy := h.inv.busyMirrors.mpr (runs_not_idle h)
  obtain ⟨t, ht, hsame, -, -, hr', hsched⟩ := hostTurnWhileBusyLeavesDatapath s hr hbusy hn
  exact ⟨t, ht, runs_of_sameDatapath h hsame (stepKeepsInvariant s t h.inv ht), hr', hsched⟩

/-- A step of the engine before the job's end is its next micro-step. -/
theorem step_engine_runs {n : Nat} (h : s.Runs job n) (hlt : n < job.microSteps) (hr : s.rst = false)
    (hn : nextTurn s = .engine) :
    ∃ t, step s = .next t ∧ t.Runs job (n + 1) ∧ withHostSideOf t (popTurn s) = t := by
  obtain ⟨t, ht, hruns⟩ := engineTurn_runs (runs_popTurn h) hlt
  exact ⟨t, (step_engine hr hn).trans ht, hruns, engineTurn_hostSide ht⟩

/-- A step of the engine at the job's end publishes the result. -/
theorem step_engine_publishes (h : s.Runs job job.microSteps) (hr : s.rst = false) (hn : nextTurn s = .engine) :
    ∃ t, step s = .next t ∧ t.Published job ∧ withHostSideOf t (popTurn s) = t := by
  obtain ⟨t, ht, hpublished⟩ := engineTurn_publishes (runs_popTurn h)
  exact ⟨t, (step_engine hr hn).trans ht, hpublished, engineTurn_hostSide ht⟩

end

/-! ## Every interleaving -/

/-- After any turns of the two agents a job has gone on by as many micro-steps as there were turns of the engine. -/
theorem run_turns {job : Job} {rest turns : List Turn} (hagents : ∀ u ∈ turns, u.isAgent = true) {s : State} {n : Nat}
    (h : s.Runs job n) (hr : s.rst = false) (hsched : s.sched = turns ++ rest)
    (hle : n + turns.count .engine ≤ job.microSteps) :
    ∃ t, Host.Core.run Sys2Proof.core turns.length s = .next t ∧ t.Runs job (n + turns.count .engine) ∧
      t.rst = false ∧ t.sched = rest := by
  induction turns generalizing s n with
  | nil => exact ⟨s, run_zero s, h, hr, hsched⟩
  | cons u turns ih =>
    have hn : nextTurn s = u := by simp [nextTurn, hsched]
    have htail : s.sched.tail = turns ++ rest := by simp [hsched]
    have hagents' : ∀ v ∈ turns, v.isAgent = true := fun v hv => hagents v (List.mem_cons_of_mem u hv)
    cases u with
    | host =>
      obtain ⟨t, ht, hruns, hr', hsched'⟩ := step_host_runs h hr hn
      rw [List.length_cons, run_of_step _ ht]
      exact ih hagents' hruns hr' (hsched'.trans htail) hle
    | engine =>
      rw [List.count_cons_self] at hle ⊢
      obtain ⟨t, ht, hruns, hside⟩ := step_engine_runs h (by omega) hr hn
      rw [List.length_cons, run_of_step _ ht, Nat.add_comm _ 1, ← Nat.add_assoc]
      exact ih hagents' hruns (hside ▸ hr) (hside ▸ htail) (by omega)
    | rst level => simp [Turn.isAgent] at hagents
    | datapath => simp [Turn.isAgent] at hagents

/-- Settles O57: the turns bring the job to its end, and the engine's next turn publishes its result. -/
theorem hashPublishesDigestInEveryInterleaving : Obligations.HashPublishesDigestInEveryInterleaving := by
  intro s m turns rest hs hr hf hop hblk hchain hlen hm hsched hagents hcount
  obtain ⟨-, -, hblocks⟩ := hs.hashLength (.inl hf) hop
  have hstart : s.Runs (hashJob m) 0 := runs_zero hs (.hash hop hm hlen (hlen ▸ hblocks)) hf hblk hchain
  have hend : 0 + turns.count .engine = (hashJob m).microSteps := (Nat.zero_add _).trans hcount
  obtain ⟨t, hrun, hruns, hr', hsched'⟩ := run_turns hagents hstart hr hsched hend.le
  obtain ⟨u, hu, hpublished, -⟩ := step_engine_publishes (hend ▸ hruns) hr' (by simp [nextTurn, hsched'])
  exact ⟨u, (run_append _ 1 s t hrun).trans (run_one hu), hpublished.digest,
    hpublished.chain.trans hpublished.digest.symm, hpublished.idle, hpublished.notBusy, hpublished.done⟩

/-! ## The engine alone -/

/-- With no turn listed there is none to take off. -/
theorem popTurn_of_nil {s : State} (h : s.sched = []) : popTurn s = s := by
  have htail : s.sched.tail = s.sched := by rw [h, List.tail_nil]
  rw [popTurn, htail]

/-- With no turn listed the engine has every turn while a job runs. -/
theorem nextTurn_of_runs {s : State} {job : Job} {n : Nat} (h : s.Runs job n) (hsched : s.sched = []) :
    nextTurn s = .engine := by
  simp only [nextTurn, hsched, runs_not_idle h, if_false]

/-- What two runs leave of the host's side, both leave. -/
theorem hostSide_trans {s t u : State} (hst : withHostSideOf t s = t) (htu : withHostSideOf u t = u) :
    withHostSideOf u s = u :=
  calc withHostSideOf u s = withHostSideOf u (withHostSideOf t s) := rfl
    _ = u := by rw [hst, htu]

/-- Alone the engine goes on by one micro-step each step, and leaves the host's side. -/
theorem run_alone {job : Job} {s : State} {n : Nat} (k : Nat) (h : s.Runs job n) (hr : s.rst = false)
    (hsched : s.sched = []) (hle : n + k ≤ job.microSteps) :
    ∃ t, Host.Core.run Sys2Proof.core k s = .next t ∧ t.Runs job (n + k) ∧ withHostSideOf t s = t := by
  induction k generalizing s n with
  | zero => exact ⟨s, run_zero s, h, rfl⟩
  | succ k ih =>
    obtain ⟨t, ht, hruns, hside⟩ := step_engine_runs h (by omega) hr (nextTurn_of_runs h hsched)
    rw [popTurn_of_nil hsched] at hside
    obtain ⟨u, hrun, hruns', hside'⟩ := ih hruns (hside ▸ hr) (hside ▸ hsched) (by omega)
    exact ⟨u, (run_of_step k ht).trans hrun, by rwa [Nat.add_comm k, ← Nat.add_assoc], hostSide_trans hside hside'⟩

/-- Alone the engine publishes a job's result in one step more than the job has micro-steps. -/
theorem run_alone_publishes {job : Job} {s : State} (h : s.Runs job 0) (hr : s.rst = false) (hsched : s.sched = []) :
    ∃ t, Host.Core.run Sys2Proof.core (job.microSteps + 1) s = .next t ∧ t.Published job ∧ withHostSideOf t s = t := by
  obtain ⟨t, hrun, hruns, hside⟩ := run_alone job.microSteps h hr hsched (Nat.zero_add _).le
  rw [Nat.zero_add] at hruns
  have hsched' : t.sched = [] := hside ▸ hsched
  obtain ⟨u, hu, hpublished, hside'⟩ := step_engine_publishes hruns (hside ▸ hr) (nextTurn_of_runs hruns hsched')
  rw [popTurn_of_nil hsched'] at hside'
  exact ⟨u, (run_append _ 1 s t hrun).trans (run_one hu), hpublished, hostSide_trans hside hside'⟩

/-- Settles O56: the job of a COMPRESS is one block, 66 micro-steps and ASSEMBLE. -/
theorem compressRunComputesCompressionFunction : Obligations.CompressRunComputesCompressionFunction := by
  intro s m hs halone hf hop hblk hm hlen
  obtain ⟨hr, hsched, -⟩ := halone
  have hstart : s.Runs (compressJob m s.chain) 0 :=
    runs_zero hs (.compress hop hm hlen (hs.compressBlocks (.inl hf) hop)) hf hblk rfl
  obtain ⟨t, hrun, hpublished, hside⟩ := run_alone_publishes hstart hr hsched
  exact ⟨t, hrun, hpublished.chain, hpublished.digest.trans hpublished.chain.symm, hpublished.idle, hpublished.notBusy,
    hpublished.done, by rw [← hside]; rfl, by rw [← hside]; rfl⟩

end Sys2Proof.Machine
end

section
/-! The source's call as a host program (R568): the acceptance of HASH starts its job, the engine alone publishes the digest,
and the host, back in turn, reads STATUS and then the registers. -/

namespace Sys2Proof.Machine

/-! ## The host's steps with the engine in IDLE -/

/-- The host has every turn: outside reset, with no turn listed and the sequencer in IDLE (R562). -/
structure State.HostsTurn (s : State) : Prop where
  notReset : s.rst = false
  noSched : s.sched = []
  idle : s.fsm = Fsm.idle

/-- The next turn is then the host's. -/
theorem nextTurn_of_hostsTurn {s : State} (h : s.HostsTurn) : nextTurn s = .host := by
  simp [nextTurn, h.noSched, h.idle]

/-- With BUSY = 0 a POLL ends with the STATUS it read (R319). -/
theorem step_poll {s : State} {rest : List HostOp} (h : s.HostsTurn) (hhost : s.host = .poll :: rest)
    (hb : s.status.busy = false) :
    ∃ t, step s = .next t ∧ t.HostsTurn ∧ t.host = rest ∧ t.reads = statusWord s.status :: s.reads ∧
      t.digest = s.digest := by
  have hword : busReadWord s 0x0004#16 = statusWord s.status := busReadWord_status (by simp [addressed_eq])
  have hends : pollTurn rest s = { busRead 0x0004#16 s with host := rest } := by
    rw [pollTurn, hword, statusWord_getLsbD, if_pos rfl, hb]
    rfl
  refine ⟨{ busRead 0x0004#16 s with host := rest }, ?_, ⟨h.notReset, h.noSched, h.idle⟩, rfl, ?_, rfl⟩
  · rw [step_host h.notReset (nextTurn_of_hostsTurn h), popTurn_of_nil h.noSched]
    simp only [hostTurn, hhost, hends]
  · exact congrArg (· :: s.reads) hword

/-- A read of a register does not depend on the environment; one of the buffer draws a free value for an unwritten byte. -/
theorem busReadWord_environment {s : State} {addr : BitVec 16} (h : ∀ off, addressed s addr ≠ .msgbuf off)
    (host : List HostOp) (reads : List Word) (draws : Nat) :
    busReadWord { s with host := host, reads := reads, draws := draws } addr = busReadWord s addr := by
  have hsame : addressed { s with host := host, reads := reads, draws := draws } addr = addressed s addr := rfl
  unfold busReadWord
  rw [hsame]
  cases hregion : addressed s addr with
  | msgbuf off => exact absurd hregion (h off)
  | _ => rfl

/-- Reads of registers return them in order, and leave the rest. -/
theorem run_reads {addrs : List (BitVec 16)} {s : State} (h : s.HostsTurn) (hhost : s.host = addrs.map .read)
    (hregs : ∀ a ∈ addrs, ∀ off, addressed s a ≠ .msgbuf off) :
    ∃ d, Host.Core.run Sys2Proof.core addrs.length s = .next
      { s with host := [], reads := (addrs.map (busReadWord s)).reverse ++ s.reads, draws := d } := by
  induction addrs generalizing s with
  | nil =>
    have hnil : s = { s with host := [] } := by
      rw [← show s.host = [] from hhost]
    exact ⟨s.draws, congrArg Host.Outcome.next hnil⟩
  | cons a addrs ih =>
    obtain ⟨d, hstep⟩ := hostReadHasNoSideEffect s a _ h.notReset (nextTurn_of_hostsTurn h) hhost
    rw [h.noSched, List.tail_nil, ← h.noSched] at hstep
    have hregs' := fun b hb => hregs b (List.mem_cons_of_mem a hb)
    obtain ⟨d', hrun⟩ := ih (s := { s with
      host := addrs.map .read
      reads := busReadWord s a :: s.reads
      draws := d }) ⟨h.notReset, h.noSched, h.idle⟩ rfl hregs'
    refine ⟨d', (run_of_step _ hstep).trans (hrun.trans ?_)⟩
    rw [List.map_congr_left fun b hb => busReadWord_environment (hregs' b hb) _ _ _]
    simp

/-- The four DIGEST registers, read in order (R319). -/
theorem run_getdigest {s : State} (h : s.HostsTurn) (hhost : s.host = progGetdigest) :
    ∃ t : State, Host.Core.run Sys2Proof.core 4 s = .next t ∧ t.host = [] ∧
      t.reads = s.digest.d :: s.digest.c :: s.digest.b :: s.digest.a :: s.reads := by
  have hregs : ∀ a ∈ [0x0010#16, 0x0014#16, 0x0018#16, 0x001C#16], ∀ off, addressed s a ≠ .msgbuf off := by
    intro a ha off
    rw [addressed_eq]
    simp only [List.mem_cons, List.not_mem_nil, or_false] at ha
    rcases ha with rfl | rfl | rfl | rfl <;> simp [regionOf_digest]
  obtain ⟨d, hrun⟩ := run_reads (addrs := [0x0010#16, 0x0014#16, 0x0018#16, 0x001C#16]) h hhost hregs
  refine ⟨_, hrun, rfl, ?_⟩
  simp only [List.map_cons, List.map_nil, busReadWord_digest (s := s) 0 (by decide) (addr := 0x0010#16) rfl,
    busReadWord_digest (s := s) 1 (by decide) (addr := 0x0014#16) rfl,
    busReadWord_digest (s := s) 2 (by decide) (addr := 0x0018#16) rfl,
    busReadWord_digest (s := s) 3 (by decide) (addr := 0x001C#16) rfl]
  rfl

/-! ## The program -/

/-- An accepted HASH of the message in the buffer starts the message's job, with STATUS as R541 sets it. -/
theorem step_hash {s : State} {m : List Byte} {rest : List HostOp} (hs : s.Inv) (h : s.HostsTurn) (hm : s.holdsMessage m)
    (hlen : (lengthOperand s).toNat = m.length) (hhost : s.host = .write 0x0000#16 0xF#4 0x00000003#32 :: rest) :
    ∃ t, step s = .next t ∧ t.Runs (hashJob m) 0 ∧ t.rst = false ∧ t.sched = [] ∧ t.status = statusAccepted ∧
      t.host = rest ∧ t.reads = s.reads := by
  have hidle : s.status.busy = false := by
    rw [Bool.eq_false_iff]
    exact fun hb => hs.busyMirrors.mp hb h.idle
  have hissue : step s = exec .hash { s with sched := s.sched.tail, host := rest } :=
    stepRunsHostCommand s _ _ _ rest h.notReset (nextTurn_of_hostsTurn h) hhost rfl rfl
  have hstep := hissue.trans
    (execHash_accepted (s := { s with sched := s.sched.tail, host := rest }) hidle (hlen.trans_le hm.1))
  have hruns := runs_zero (stepKeepsInvariant _ _ hs hstep)
    (.hash rfl hm hlen (congrArg blockCount hlen)) rfl rfl rfl
  exact ⟨_, hstep, hruns, h.notReset, by simp [h.noSched], rfl, rfl, rfl⟩

/-- The STATUS that an accepted command ends with, when nothing was rejected meanwhile: DONE alone. -/
theorem statusWord_done {st : Status} (hb : st.busy = false) (hd : st.done = true) (he : st.err = false)
    (hc : st.errcode = .none) : statusWord st = 0x00000002#32 := by
  obtain ⟨busy, done, err, errcode⟩ := st
  subst hb hd he hc
  rfl

/-- Settles O58: HASH starts the job, the engine alone publishes its result, POLL ends at once, and the reads are those of
GETDIGEST. -/
theorem hashProgramReadsDigest : Obligations.HashProgramReadsDigest := by
  intro s m hs hr hsched hf hm hlen hhost
  obtain ⟨t, hissue, hruns, hr', hsched', hstatus, hhost', hreads⟩ :=
    step_hash hs ⟨hr, hsched, hf⟩ hm ((lengthOperand_toNat s).trans hlen) hhost
  obtain ⟨u, hrun, hpublished, hside⟩ := run_alone_publishes hruns hr' hsched'
  have herr : u.status.err = t.status.err := hside ▸ rfl
  have hcode : u.status.errcode = t.status.errcode := hside ▸ rfl
  have hword : statusWord u.status = 0x00000002#32 :=
    statusWord_done hpublished.notBusy hpublished.done (by rw [herr, hstatus]; rfl) (by rw [hcode, hstatus]; rfl)
  have hprogram : u.host = .poll :: progGetdigest := hside ▸ hhost'
  obtain ⟨v, hpoll, hturn, hgetdigest, hreads', hdigest⟩ :=
    step_poll ⟨hside ▸ hr', hside ▸ hsched', hpublished.idle⟩ hprogram hpublished.notBusy
  obtain ⟨w, hget, hempty, hwords⟩ := run_getdigest hturn hgetdigest
  have hhash : Host.Core.run Sys2Proof.core (1 + ((hashJob m).microSteps + 1)) s = .next u :=
    (run_append 1 _ s t (run_one hissue)).trans hrun
  refine ⟨w, (run_append _ 5 s u hhash).trans ((run_of_step 4 hpoll).trans hget), hempty, ?_⟩
  have hkept : u.reads = s.reads := hside ▸ hreads
  rw [hwords, hreads', hword, hkept, hdigest, hpublished.digest, hashJob_result]

end Sys2Proof.Machine
end

section
/-! Rejection and the one fault: the outcome of every CTRL word in R602's order, what a command leaves unchanged whichever
way it goes (R603), and that a run faults only at a LOAD of an unwritten byte (R607). -/

namespace Sys2Proof.Machine

/-! ## The commands by their opcodes -/

/-- The opcode of a command that can be accepted (R302). -/
def opcodeOf : Cmd → Nat
  | .init => 1
  | .compress => 2
  | .hash => 3

/-- The instruction of a command that can be accepted (R302). -/
def instrOf : Cmd → Instr
  | .init => .init
  | .compress => .compress
  | .hash => .hash

/-- A CTRL word with the opcode of a command issues it. -/
theorem decodeCommand_of_opcodeOf {w : Word} {c : Cmd} (h : w.toNat % 16 = opcodeOf c) : decodeCommand w = instrOf c := by
  rw [commandDecodedByLowFourBits, h]
  cases c <;> rfl

/-- The opcodes 1 to 3 are those of the commands that can be accepted. -/
theorem exists_opcodeOf {op : Nat} (hlo : 1 ≤ op) (hhi : op ≤ 3) : ∃ c, op = opcodeOf c := by
  obtain rfl | rfl | rfl : op = 1 ∨ op = 2 ∨ op = 3 := by omega
  exacts [⟨.init, rfl⟩, ⟨.compress, rfl⟩, ⟨.hash, rfl⟩]

/-! ## The checks (R602) -/

/-- OP = 0 is NOP: no check and no effect. -/
theorem exec_command_nop {w : Word} (h : w.toNat % 16 = 0) (s : State) : exec (decodeCommand w) s = .next s := by
  rw [commandDecodedByLowFourBits, if_pos h]
  rfl

/-- OP of 4 or more is rejected with CMD before any other check (R604). -/
theorem exec_command_reserved {w : Word} (h : 4 ≤ w.toNat % 16) (s : State) :
    exec (decodeCommand w) s = .next (reject .cmd s) := by
  rw [commandDecodedByLowFourBits, if_neg (by omega), if_neg (by omega), if_neg (by omega), if_neg (by omega)]
  split <;> rfl

/-- With BUSY = 1 every other command is rejected with BUSY (R605). -/
theorem exec_instrOf_busy {s : State} (hb : s.status.busy = true) (c : Cmd) :
    exec (instrOf c) s = .next (reject .busy s) := by
  cases c <;> exact if_pos hb

/-- With BUSY = 0 a HASH of a length above the buffer's capacity is rejected with LEN (R606). -/
theorem exec_hash_tooLong {s : State} (hb : s.status.busy = false) (hL : s.msgBytes < (lengthOperand s).toNat) :
    exec .hash s = .next (reject .len s) := by
  simp [exec, execHash, hb, hL]

/-- The state in which an accepted command leaves the rest of its work to the engine (R545, R547, R550). -/
def acceptedState (c : Cmd) (s : State) : State :=
  match c with
  | .init => { accept .init s with chain := initialValue, fsm := Fsm.assemble }
  | .compress => { accept .compress s with blk := 0, nblk := 1, fsm := Fsm.load }
  | .hash =>
    { accept .hash s with
      lenQ := lengthOperand s
      chain := initialValue
      blk := 0
      nblk := blockCount (lengthOperand s).toNat
      fsm := Fsm.load }

/-- A command that passes its checks is accepted. -/
theorem exec_instrOf_accepted {s : State} {c : Cmd} (hb : s.status.busy = false)
    (hL : c = .hash → (lengthOperand s).toNat ≤ s.msgBytes) : exec (instrOf c) s = .next (acceptedState c s) := by
  cases c with
  | init => exact execInit_idle hb
  | compress => exact compressAccepted s hb
  | hash => exact execHash_accepted hb (hL rfl)

/-- Settles O30: the write issues its command, and a reserved one has no other outcome. -/
theorem reservedOpcodesRejected : Obligations.ReservedOpcodesRejected := by
  refine fun s => ⟨fun addr be wdata haddr hbe hop => ?_, fun op => ⟨rfl, rfl⟩⟩
  rw [(ctrlWriteIssuesCommand s addr be wdata haddr).1 hbe]
  exact exec_command_reserved hop s

/-- Settles O31: one law for each of R602's checks, in their order, then acceptance. -/
theorem issueChecksInOrder : Obligations.IssueChecksInOrder := by
  intro s w OP rejected
  refine ⟨fun hop => exec_command_nop hop s, fun hop => exec_command_reserved hop s, fun hlo hhi hb => ?_,
    fun hop hb hL => ?_, fun hlo hhi hb hL => ?_⟩
  · obtain ⟨c, hc⟩ := exists_opcodeOf hlo hhi
    rw [decodeCommand_of_opcodeOf hc]
    exact exec_instrOf_busy hb c
  · rw [decodeCommand_of_opcodeOf (c := .hash) hop]
    exact exec_hash_tooLong hb (lengthOperand_toNat s ▸ hL)
  · obtain ⟨c, hc⟩ := exists_opcodeOf hlo hhi
    rw [decodeCommand_of_opcodeOf hc, hc]
    refine ⟨acceptedState c s, exec_instrOf_accepted hb fun hhash => ?_, ?_, ?_⟩
    · rw [lengthOperand_toNat]
      exact hL (hc.trans (congrArg opcodeOf hhash))
    all_goals cases c <;> rfl

/-! ## The frame of the commands (R603) -/

/-- Issuing a CTRL word leaves the state, rejects, or with BUSY = 0 accepts the command of its opcode. -/
theorem command_outcome {s t : State} {w : Word} (h : exec (decodeCommand w) s = .next t) :
    t = s ∨ (∃ code, t = reject code s) ∨
    ∃ c, w.toNat % 16 = opcodeOf c ∧ s.status.busy = false ∧ t = acceptedState c s := by
  have hop : w.toNat % 16 = 0 ∨ 4 ≤ w.toNat % 16 ∨ 1 ≤ w.toNat % 16 ∧ w.toNat % 16 ≤ 3 := by omega
  rcases hop with hnop | hreserved | ⟨hlo, hhi⟩
  · rw [exec_command_nop hnop] at h
    exact .inl (Host.Outcome.next.inj h).symm
  · rw [exec_command_reserved hreserved] at h
    exact .inr (.inl ⟨_, (Host.Outcome.next.inj h).symm⟩)
  · obtain ⟨c, hc⟩ := exists_opcodeOf hlo hhi
    rw [decodeCommand_of_opcodeOf hc] at h
    cases hb : s.status.busy with
    | true =>
      rw [exec_instrOf_busy hb] at h
      exact .inr (.inl ⟨_, (Host.Outcome.next.inj h).symm⟩)
    | false =>
      by_cases hL : c = .hash → (lengthOperand s).toNat ≤ s.msgBytes
      · rw [exec_instrOf_accepted hb hL] at h
        exact .inr (.inr ⟨c, hc, rfl, (Host.Outcome.next.inj h).symm⟩)
      · obtain ⟨rfl, hlong⟩ := Classical.not_imp.mp hL
        rw [instrOf, exec_hash_tooLong hb (Nat.lt_of_not_le hlong)] at h
        exact .inr (.inl ⟨_, (Host.Outcome.next.inj h).symm⟩)

/-- Settles O32, by the outcomes of a command: a rejection writes STATUS alone, and each accepted command the registers of
its own acceptance. -/
theorem commandsFrame : Obligations.CommandsFrame := by
  intro s t w h
  rcases command_outcome h with rfl | ⟨code, rfl⟩ | ⟨c, hop, hb, rfl⟩
  · simp [sameSurroundings, sameHostStorage, sameBuffer]
  · simp [sameSurroundings, sameHostStorage, sameBuffer]
  · rw [hop]
    cases c <;> simp [sameSurroundings, sameHostStorage, sameBuffer, acceptedState, opcodeOf, hb]

/-! ## The one fault of a run (R607) -/

/-- From a state that meets the invariant a LOAD faults on unwritten bytes only: the block it decodes is in the range of what
it reads (R206, R445). -/
theorem execLoad_fault_unwritten {s : State} {f : Fault} (hs : s.Inv) (hf : s.fsm = Fsm.load)
    (h : execLoad s = .fault f) : f = .unwrittenByte := by
  have hblock : s.inBlock := .inl hf
  obtain ⟨w, hw, hword⟩ := execLoad_fault h
  rcases hs.blockCommand hblock with hop | hop
  · rw [scheduleWord_compress hop] at hword
    obtain ⟨j, hj, hbyte⟩ := readWord_error hword
    obtain ⟨-, hcap, -⟩ := hs.capacity
    exact memRead1_error (by omega) hbyte
  · rw [scheduleWord_hash hop] at hword
    obtain ⟨j, hj, hbyte⟩ := readWord_error hword
    obtain ⟨-, hfit, hblocks⟩ := hs.hashLength hblock hop
    have hblk := hs.blockIndex hblock
    refine padByte_error hfit ?_ hbyte
    rw [paddedLength, ← hblocks]
    omega

/-- The codes up to 4 are IDLE and the four micro-steps (R111). -/
theorem code_cases : ∀ c : BitVec 3, c.toNat ≤ 4 →
    c = Fsm.idle ∨ c = Fsm.load ∨ c = Fsm.round ∨ c = Fsm.fold ∨ c = Fsm.assemble := by
  decide

/-- From a state that meets the invariant the engine's turn faults only at a LOAD of an unwritten byte: ROUND finds its
microword and its constant, and the code is one of the sequencer's. -/
theorem engineTurn_fault {s : State} {f : Fault} (hs : s.Inv) (h : engineTurn s = .fault f) :
    f = .unwrittenByte ∧ s.fsm = Fsm.load := by
  rcases code_cases s.fsm hs.fsmCode with hf | hf | hf | hf | hf
  · simp [engineTurn_idle hf] at h
  · exact ⟨execLoad_fault_unwritten hs hf ((engineTurn_load hf).symm.trans h), hf⟩
  · obtain ⟨hlo, hhi⟩ := hs.roundIndex hf
    simp [engineTurn_round hf, execRound_refStep hs.constants hs.steps hlo hhi] at h
  · simp [engineTurn_fold hf, execFold] at h
  · simp [engineTurn_assemble hf, execAssemble] at h

/-- A step that faults is a turn of the engine or of the datapath alone, outside reset. -/
theorem step_fault {s : State} {f : Fault} (h : step s = .fault f) :
    s.rst = false ∧ ((nextTurn s = .engine ∧ engineTurn (popTurn s) = .fault f) ∨
      (nextTurn s = .datapath ∧ datapathTurn (popTurn s) = .fault f)) := by
  unfold step machineStep at h
  cases hn : nextTurn s with
  | rst level => cases level <;> simp [hn, takeTurn] at h
  | host =>
    obtain ⟨t, ht⟩ := hostTurn_next (popTurn s)
    cases hr : s.rst <;> simp [hn, takeTurn, hr, ht] at h
  | engine =>
    cases hr : s.rst with
    | true => simp [hn, takeTurn, hr] at h
    | false => exact ⟨rfl, .inl ⟨rfl, by simpa [hn, takeTurn, hr] using h⟩⟩
  | datapath =>
    cases hr : s.rst with
    | true => simp [hn, takeTurn, hr] at h
    | false => exact ⟨rfl, .inr ⟨rfl, by simpa [hn, takeTurn, hr] using h⟩⟩

/-- Settles O48: without the datapath turn the step is the engine's, and of its micro-steps LOAD alone can fault. -/
theorem onlyUnwrittenBytesFault : Obligations.OnlyUnwrittenBytesFault := by
  intro s f hs hn h
  obtain ⟨-, ⟨-, hx⟩ | ⟨hdatapath, -⟩⟩ := step_fault h
  · exact engineTurn_fault (s := popTurn s) { hs with } hx
  · exact absurd hdatapath hn

end Sys2Proof.Machine
end

section
/-! Reset: the values of R701 at power-up and at every edge with `rst = 1`, what such an edge makes of the bus and the
engine (R700), and the invariant's base case. -/

namespace Sys2Proof.Machine

/-! ## What the reset action leaves (R701) -/

/-- The reset action gives every item its value of R701, whatever the state before it. -/
theorem resetAction_hasResetValues (u : State) : (resetAction u).hasResetValues :=
  ⟨resetAction_fsm u, congrArg statusWord (resetAction_status u), resetAction_lenLo u, resetAction_lenHi u,
    resetAction_digest u, resetAction_chain u, fun off => by rw [resetAction_mem]; rfl⟩

/-- Settles O1: on the items R701 names, `State.reset` is what its own reset action leaves. -/
theorem resetStateHoldsSpecValues : Obligations.ResetStateHoldsSpecValues :=
  ⟨resetAction_hasResetValues State.reset, rfl, rfl⟩

/-! ## The transaction lost under reset (R700) -/

/-- A write under reset is dropped. -/
theorem hostInReset_write {s : State} {addr : BitVec 16} {be : BitVec 4} {wdata : Word} {rest : List HostOp}
    (h : s.host = .write addr be wdata :: rest) : hostInReset s = { s with host := rest } := by
  simp [hostInReset, h]

/-- A read under reset returns 0. -/
theorem hostInReset_read {s : State} {addr : BitVec 16} {rest : List HostOp} (h : s.host = .read addr :: rest) :
    hostInReset s = { s with host := rest, reads := 0#32 :: s.reads } := by
  simp [hostInReset, h]

/-! ## The step at an edge with `rst = 1` -/

/-- The edge that raises `rst` resets. -/
theorem step_rst_high {s : State} (hn : nextTurn s = .rst true) :
    step s = .next (resetAction { popTurn s with rst := true }) := by
  simp [step, machineStep, hn, takeTurn]

/-- The host's turn under reset loses its transaction and resets. -/
theorem step_host_in_reset {s : State} (hr : s.rst = true) (hn : nextTurn s = .host) :
    step s = .next (resetAction (hostInReset (popTurn s))) := by
  simp [step, machineStep, hn, takeTurn, hr]

/-- The engine's turn under reset takes no micro-step and resets. -/
theorem step_engine_in_reset {s : State} (hr : s.rst = true) (hn : nextTurn s = .engine) :
    step s = .next (resetAction (popTurn s)) := by
  simp [step, machineStep, hn, takeTurn, hr]

/-- Settles O2: the step is a reset action, which keeps the ROMs, the capacity and the environment. -/
theorem resetEdgeFromAnyState : Obligations.ResetEdgeFromAnyState := by
  intro s ts hsched
  have hn : nextTurn s = .rst true := by simp [nextTurn, hsched]
  exact ⟨_, step_rst_high hn, resetAction_hasResetValues _, rfl, rfl, rfl, rfl, rfl⟩

/-- Settles O3: each of the three edges is a reset action, after what R700 makes of the transaction. -/
theorem rstHighIgnoresBusAndEngine : Obligations.RstHighIgnoresBusAndEngine := by
  refine fun s hr => ⟨fun addr be wdata rest hn hhost => ?_, fun addr rest hn hhost => ?_, fun hn => ?_⟩
  · rw [step_host_in_reset hr hn, hostInReset_write (s := popTurn s) hhost]
    exact ⟨_, rfl, resetAction_hasResetValues _, rfl, rfl⟩
  · rw [step_host_in_reset hr hn, hostInReset_read (s := popTurn s) hhost]
    exact ⟨_, rfl, resetAction_hasResetValues _, rfl, rfl⟩
  · exact ⟨_, step_engine_in_reset hr hn, resetAction_hasResetValues _, rfl, rfl⟩

/-! ## The base case of the invariant -/

/-- The capacity of `State.reset` is one R11 allows. -/
theorem resetCapacity_legal : Config.legalCapacity Config.resetCapacity := by decide

/-- The machine processes no block right after reset: it is in IDLE. -/
theorem reset_not_inBlock : ¬ State.reset.inBlock := fun hblock => (inBlock_code hblock).2 rfl

/-- Settles O45: `State.reset` agrees with its own reset action on every clause but those about a block being processed,
which speak of registers R701 leaves unspecified and are empty in IDLE. -/
theorem resetMeetsInvariant : Obligations.ResetMeetsInvariant :=
  { inv_resetAction (u := State.reset) resetCapacity_legal rfl rfl with
    roundIndex := fun hround => absurd (.inr (.inl hround)) reset_not_inBlock
    blockIndex := fun hblock => absurd hblock reset_not_inBlock
    blockCommand := fun hblock => absurd hblock reset_not_inBlock
    compressBlocks := fun hblock => absurd hblock reset_not_inBlock
    hashLength := fun hblock => absurd hblock reset_not_inBlock }

end Sys2Proof.Machine
end
